-- ==== Sys2Proof/Word.lean ====
section
/-! DEFINITION. The words of the x8 core: bytes, register indices and 16-bit composite addresses. -/

namespace Sys2Proof

/-- An 8-bit cell, literal or memory byte, unsigned (00_scope.md R8). -/
abbrev Byte := BitVec 8

/-- A RegisterIndex, "an 8-bit index into the Register File" (00_scope.md R12); values above 15 name no cell. -/
abbrev RegIndex := BitVec 8

/-- A 16-bit composite address (20_memory.md R59). -/
abbrev Addr16 := BitVec 16

end Sys2Proof
end

