-- ==== Sys2Proof/Config.lean ====
section
/-! DEFINITION. The fixed parameters of the machine (00_scope.md R4), the type of the one open parameter of a run
(R5; 45_stack_io.md R183), and the one value the spec leaves free (log 14). The decided register numbers of R5 stand in
Machine/Ops.lean. -/

namespace Sys2Proof

/-- The two placement rules of `P_READ_PLACEMENT` (45_stack_io.md R183). Which one a run uses is a field of State (log 9). -/
inductive ReadPlacement where
  | appendAtSP
  | absoluteZero
  deriving DecidableEq, Repr

/-- Bytes in the address space (R4 `AS_SIZE`). -/
def Config.asSize : Nat := 0x400

/-- End of the Instruction region, which starts at 0 (R4 `INSTR_BASE`, `INSTR_SIZE`). -/
def Config.instrEnd : Nat := 0x100

/-- First byte of the Memory region (R4 `MEM_BASE`). -/
def Config.memBase : Nat := 0x100

/-- First byte of the Stack region (R4 `STACK_BASE`), the end of the Memory region. -/
def Config.stackBase : Nat := 0x300

/-- Bytes in the Stack region (R4 `STACK_SIZE`). -/
def Config.stackSize : Nat := 0x100

/-- Longest instruction in bytes (R4 `MAXLEN`). -/
def Config.maxLen : Nat := 4

/-- FREE VALUE (log 14): how many input bytes a `ReadStdinStack` that ends in a fatal condition has consumed. "Input bytes
consumed by a faulting `ReadStdinStack` are not specified" (60_exceptions.md R252; U15 `any value`). It has no body: it may
depend on the bytes that were available and on the count asked for, and nothing is known of it. -/
opaque Config.consumedByFailedRead (available : List Byte) (count : Nat) : Nat

end Sys2Proof
end

