-- ==== Sys2Proof/Machine/State.lean ====
section
/-! DEFINITION. The whole state of the machine (10_state.md R20) as plain data, the reasons a step can stop, and the state
after reset (R38; 70_reset_and_hazards.md R270). -/

namespace Sys2Proof.Machine

/-- The seven fatal conditions F1 to F7 (60_exceptions.md R241). They are causes held by the run state, since a fatal
condition is a step with an effect of its own (R252); the machine has no cause register (10_state.md R33). -/
inductive Cause where
  /-- F1, R242: the byte at `PC` is above 13. -/
  | unknownOpcode
  /-- F2, R243: the instruction needs bytes beyond offset 0xFF. -/
  | decodeExhausted
  /-- F3, R244: `ReadStdinStack` with SP + count above 256. -/
  | stackOverflow
  /-- F4, R245: `PopReg8` with SP = 0. -/
  | stackEmpty
  /-- F5, R246: the input ends before `count` bytes. -/
  | inputExhausted
  /-- F6, R247: a register operand byte above 15. -/
  | registerIndexOutOfRange
  /-- F7, R248: a composite address of 0x400 or above. -/
  | addressOutOfRange
  deriving DecidableEq, Repr

/-- The run state (46_fetch_execute_loop.md R200). -/
inductive RunState where
  | running
  | halted
  | faulted (cause : Cause)
  deriving DecidableEq, Repr

/-- The bytes of the address space that are not 0x00, by rising address (log 23). Its form is `Memory.wf`. -/
abbrev Memory := List Host.Cell

/-- What an unlisted address reads as: the address space is "fully zero-initialized" before the loader's bytes
(70_reset_and_hazards.md R270). -/
def Memory.unlisted : Byte := 0x00

/-- The state of the machine (10_state.md R20) and the open parameter of the run (45_stack_io.md R183). -/
structure State where
  /-- `x[0..15]`, the register file; `PC` and `SP` are two of its cells (R21, R22). -/
  regs : Vector Byte 16
  /-- The comparison flag (R31). -/
  equal : Bool
  /-- `AS[0..1023]`, the address space (R34). -/
  mem : Memory
  /-- The run state (R33). -/
  run : RunState
  /-- `In`: the bytes the source has for this run so far, first to arrive first (R35). -/
  input : List Byte
  /-- `In`: how many of them have been consumed (R35). -/
  inPos : Nat
  /-- `In`: the source ends after these bytes; while false, more may still arrive (50_interfaces.md R221). -/
  inputEnded : Bool
  /-- `Out`: the bytes written so far, oldest first (R35). -/
  output : List Byte
  /-- `P_READ_PLACEMENT`, a parameter of the run that no step writes (log 9). -/
  placement : ReadPlacement
  deriving DecidableEq, Repr

/-- Why a step has no next state: the run has ended. "No step exists from `Halted` or from `Faulted`"
(46_fetch_execute_loop.md R204). No instruction raises these. -/
inductive Fault where
  /-- Raised by `step` alone, on a halted state. Safe: there is no step to say anything about (log 17). -/
  | runHalted
  /-- Raised by `step` alone, on a faulted state, with its cause. Safe, as `runHalted` (log 17). -/
  | runFaulted (cause : Cause)
  deriving DecidableEq, Repr

/-- What the model declines to give a meaning. -/
inductive Refusal where
  /-- Raised by an arm of `exec` whose instruction has no meaning yet; no arm raises it now. Safe. -/
  | notModelled (mnemonic : String)
  /-- Raised by `launch` alone: an image that has not exactly 1024 bytes (92_eei_decisions.md D15, U17). Safe. -/
  | imageLength (bytes : Nat)
  deriving DecidableEq, Repr

/-- The machine right after reset: "Initial state Running, with PC = 0 and all registers/flags zero" (10_state.md R38),
memory all zero (70_reset_and_hazards.md R270), nothing consumed, nothing written. The input sequence and the placement are
parameters of the run; their values here are the model's choice (logs 9 and 12). -/
def State.reset : State where
  regs := Vector.replicate 16 0x00
  equal := false
  mem := []
  run := .running
  input := []
  inPos := 0
  inputEnded := true
  output := []
  placement := .appendAtSP

end Sys2Proof.Machine
end

