-- ==== Sys2Proof/Machine/Flags.lean ====
section
/-! DEFINITION. The one flag, `equal` (10_state.md R31): its computation and its write. -/

namespace Sys2Proof.Machine

/-- Equality of the two 8-bit patterns (44_compare.md R170, R171). -/
def equalOf (a b : Byte) : Bool :=
  a == b

/-- `equal <- b` (00_scope.md R9). -/
def State.setEqual (s : State) (b : Bool) : State :=
  { s with equal := b }

end Sys2Proof.Machine
end

