-- ==== Sys2Proof/Syntax.lean ====
section
/-! DEFINITION. The instructions: one constructor per row of spec/opcode_table.json, operands in encoding order
(30_encoding.md R83). Operands are the raw operand bytes, since the decoder accepts every one (40_decoder.md R114). -/

namespace Sys2Proof

/-- "a tagged variant, one case per opcode, holding only the operand fields that opcode requires" (00_scope.md R12). -/
inductive Instr where
  | exit
  | movReg8Const8 (reg : RegIndex) (value : Byte)
  | xorMemReg8Const8 (reg : RegIndex) (value : Byte)
  | cmpReg8Const8 (reg : RegIndex) (value : Byte)
  | cmpReg8Reg8 (regA regB : RegIndex)
  | jumpIfNotEqual (target : Byte)
  | subReg8Const8 (reg : RegIndex) (value : Byte)
  | addReg8Const8 (reg : RegIndex) (value : Byte)
  | xorReg8Const8 (reg : RegIndex) (value : Byte)
  | xorReg8Reg8 (dest src : RegIndex)
  | readStdinStack (count : Byte)
  | popReg8 (reg : RegIndex)
  | derefAddressReg16Reg8 (addrHigh addrLow dest : RegIndex)
  | writeStdoutConst8 (byte : Byte)
  deriving DecidableEq, Repr

/-- The register operands of an instruction, in encoding order (10_state.md R25, 30_encoding.md R83). -/
def Instr.regOperands : Instr → List RegIndex
  | .exit => []
  | .movReg8Const8 reg _ => [reg]
  | .xorMemReg8Const8 reg _ => [reg]
  | .cmpReg8Const8 reg _ => [reg]
  | .cmpReg8Reg8 regA regB => [regA, regB]
  | .jumpIfNotEqual _ => []
  | .subReg8Const8 reg _ => [reg]
  | .addReg8Const8 reg _ => [reg]
  | .xorReg8Const8 reg _ => [reg]
  | .xorReg8Reg8 dest src => [dest, src]
  | .readStdinStack _ => []
  | .popReg8 reg => [reg]
  | .derefAddressReg16Reg8 addrHigh addrLow dest => [addrHigh, addrLow, dest]
  | .writeStdoutConst8 _ => []

end Sys2Proof
end

