-- ==== Sys2Proof/Decode.lean ====
section
/-! DEFINITION. The decoder (40_decoder.md R110 to R117), total on any bytes, and after it the encoder (30_encoding.md
R90) and the host's `decodeTableWord`. -/

namespace Sys2Proof

/-- What one call of the decoder answers (40_decoder.md R110, R117). -/
inductive DecodeResult where
  /-- An instruction and the number of bytes consumed. -/
  | instr (i : Instr) (n : Nat)
  /-- The first byte maps to no opcode (R112). -/
  | unknownOpcode (byte : Byte)
  /-- The cursor ended before the opcode's operand bytes (R113). -/
  | exhausted
  deriving DecidableEq, Repr

/-- One operand byte: format F1 (30_encoding.md R82). -/
def takeOperand (rest : List Byte) (f : Byte → Instr) : DecodeResult :=
  match rest with
  | a :: _ => .instr (f a) 2
  | [] => .exhausted

/-- Two operand bytes: format F2. -/
def takeOperands2 (rest : List Byte) (f : Byte → Byte → Instr) : DecodeResult :=
  match rest with
  | a :: b :: _ => .instr (f a b) 3
  | _ => .exhausted

/-- Three operand bytes: format F3. -/
def takeOperands3 (rest : List Byte) (f : Byte → Byte → Byte → Instr) : DecodeResult :=
  match rest with
  | a :: b :: c :: _ => .instr (f a b c) 4
  | _ => .exhausted

/-- Decode at the head of a cursor (R111). The opcode is looked at before the length (R112), operand values are not looked
at (R114). An empty cursor, which no `PC` gives, is exhausted. -/
def decode : List Byte → DecodeResult
  | [] => .exhausted
  | op :: rest =>
    match op.toNat with
    | 0x00 => .instr .exit 1
    | 0x01 => takeOperands2 rest .movReg8Const8
    | 0x02 => takeOperands2 rest .xorMemReg8Const8
    | 0x03 => takeOperands2 rest .cmpReg8Const8
    | 0x04 => takeOperands2 rest .cmpReg8Reg8
    | 0x05 => takeOperand rest .jumpIfNotEqual
    | 0x06 => takeOperands2 rest .subReg8Const8
    | 0x07 => takeOperands2 rest .addReg8Const8
    | 0x08 => takeOperands2 rest .xorReg8Const8
    | 0x09 => takeOperands2 rest .xorReg8Reg8
    | 0x0A => takeOperand rest .readStdinStack
    | 0x0B => takeOperand rest .popReg8
    | 0x0C => takeOperands3 rest .derefAddressReg16Reg8
    | 0x0D => takeOperand rest .writeStdoutConst8
    | _ => .unknownOpcode op

/-- The opcode byte: the ordinal of the declaration order (30_encoding.md R81). -/
def Instr.opcode : Instr → Byte
  | .exit => 0x00
  | .movReg8Const8 _ _ => 0x01
  | .xorMemReg8Const8 _ _ => 0x02
  | .cmpReg8Const8 _ _ => 0x03
  | .cmpReg8Reg8 _ _ => 0x04
  | .jumpIfNotEqual _ => 0x05
  | .subReg8Const8 _ _ => 0x06
  | .addReg8Const8 _ _ => 0x07
  | .xorReg8Const8 _ _ => 0x08
  | .xorReg8Reg8 _ _ => 0x09
  | .readStdinStack _ => 0x0A
  | .popReg8 _ => 0x0B
  | .derefAddressReg16Reg8 _ _ _ => 0x0C
  | .writeStdoutConst8 _ => 0x0D

/-- The operand bytes in encoding order (30_encoding.md R83). -/
def Instr.operands : Instr → List Byte
  | .exit => []
  | .movReg8Const8 reg value => [reg, value]
  | .xorMemReg8Const8 reg value => [reg, value]
  | .cmpReg8Const8 reg value => [reg, value]
  | .cmpReg8Reg8 regA regB => [regA, regB]
  | .jumpIfNotEqual target => [target]
  | .subReg8Const8 reg value => [reg, value]
  | .addReg8Const8 reg value => [reg, value]
  | .xorReg8Const8 reg value => [reg, value]
  | .xorReg8Reg8 dest src => [dest, src]
  | .readStdinStack count => [count]
  | .popReg8 reg => [reg]
  | .derefAddressReg16Reg8 addrHigh addrLow dest => [addrHigh, addrLow, dest]
  | .writeStdoutConst8 byte => [byte]

/-- The encoded length, a function of the opcode alone (30_encoding.md R88). -/
def Instr.len : Instr → Nat
  | .exit => 1
  | .movReg8Const8 _ _ => 3
  | .xorMemReg8Const8 _ _ => 3
  | .cmpReg8Const8 _ _ => 3
  | .cmpReg8Reg8 _ _ => 3
  | .jumpIfNotEqual _ => 2
  | .subReg8Const8 _ _ => 3
  | .addReg8Const8 _ _ => 3
  | .xorReg8Const8 _ _ => 3
  | .xorReg8Reg8 _ _ => 3
  | .readStdinStack _ => 2
  | .popReg8 _ => 2
  | .derefAddressReg16Reg8 _ _ _ => 4
  | .writeStdoutConst8 _ => 2

/-- The bytes of an instruction in address order: the opcode byte, then the operand bytes (30_encoding.md R80, R90). -/
def encode (i : Instr) : List Byte :=
  i.opcode :: i.operands

/-- The `k` bytes of a number, least significant byte first. -/
def bytesOf (w : Nat) : Nat → List Byte
  | 0 => []
  | k + 1 => BitVec.ofNat 8 w :: bytesOf (w / 256) k

/-- The bytes the host's table word stands for: byte 0, the opcode byte, in bits 7..0, the next byte in bits 15..8; every
bit above `nbits` is 0, up to the longest instruction. -/
def tableBytes (nbits w : Nat) : List Byte :=
  bytesOf (w % 2 ^ nbits) Config.maxLen

/-- The instruction the decoder reads from a table word, or none where it refuses. -/
def decodeTableWord (nbits w : Nat) : Option Instr :=
  match decode (tableBytes nbits w) with
  | .instr i _ => some i
  | .unknownOpcode _ => none
  | .exhausted => none

end Sys2Proof
end

