-- ==== Sys2Proof/Machine/Operands.lean ====
section
/-! DEFINITION. Every operand form of the instruction set (30_encoding.md R84): a register operand, and the three
addresses an instruction forms (20_memory.md R53): one register, a register pair, an offset of the Stack region. Literals,
counts and targets are the operand byte itself. -/

namespace Sys2Proof.Machine

/-- The register-file index of `PC`, the spec's decision D1 (10_state.md R22; log 1). -/
def idxPC : Fin 16 := 8

/-- The register-file index of `SP`, the spec's decision D1 (10_state.md R22; log 1). -/
def idxSP : Fin 16 := 9

/-- The register-file index of the general register `R<k>`, the spec's decision D1 (10_state.md R22; log 1). -/
def idxR (k : Fin 8) : Fin 16 := k.castLE (by decide)

/-- The cell a register operand names, or `RegisterIndexOutOfRange` for a byte above 15 (10_state.md R24). -/
def cell (r : RegIndex) : Except Cause (Fin 16) :=
  if h : r.toNat < 16 then .ok ⟨r.toNat, h⟩ else .error .registerIndexOutOfRange

/-- The address of an 8-bit register, zero-extended, no base added: `ea = zext_16(x[reg])` (43_memory.md R160). -/
def regAddr (value : Byte) : Nat :=
  value.toNat

/-- The composite address: the high register in bits 15..8, the low one in bits 7..0 (20_memory.md R59). -/
def composite (high low : Byte) : Addr16 :=
  high ++ low

/-- The absolute address of offset `off` of the Stack region: `Stack[off]` is `AS[0x300 + off]` (20_memory.md R56). -/
def stackAddr (off : Byte) : Nat :=
  Config.stackBase + off.toNat

end Sys2Proof.Machine
end

