-- ==== Sys2Proof/Machine/Ops.lean ====
section
/-! DEFINITION. The named operations every rule is written in (00_scope.md R9): memory, registers, channels, the `PC`
advance, fetching, and the one shared operation that takes a fatal condition. There is no return from a fatal condition
(60_exceptions.md R253), so none stands beside it. -/

namespace Sys2Proof.Machine

/-! ### Memory -/

/-- The byte at an address. -/
def Memory.read : Memory → Nat → Byte
  | [], _ => Memory.unlisted
  | (k, v) :: m, a => if a = k then v else Memory.read m a

/-- Put an entry in front, unless its byte is what an unlisted address reads as. -/
def Memory.put (a : Nat) (v : Byte) (m : Memory) : Memory :=
  if v = Memory.unlisted then m else (a, v) :: m

/-- The memory with byte `v` at `a`, its form kept. -/
def Memory.write : Memory → Nat → Byte → Memory
  | [], a, v => Memory.put a v []
  | (k, w) :: m, a, v =>
    if a < k then Memory.put a v ((k, w) :: m)
    else if a = k then Memory.put a v m
    else (k, w) :: Memory.write m a v

/-- Consecutive bytes from `a` upward. -/
def Memory.writeList : Memory → Nat → List Byte → Memory
  | m, _, [] => m
  | m, a, v :: vs => Memory.writeList (m.write a v) (a + 1) vs

/-- Consecutive bytes from `a` upward, and nothing else: an image as memory. -/
def Memory.ofImage (a : Nat) : List Byte → Memory
  | [] => []
  | v :: vs => Memory.put a v (Memory.ofImage (a + 1) vs)

/-- The canonical form: addresses strictly rising and inside the address space, no byte listed that an unlisted address
reads as. -/
def Memory.wf : Memory → Bool
  | [] => true
  | (k, v) :: m =>
    decide (k < Config.asSize) && decide (v ≠ Memory.unlisted) && m.all (fun c => decide (k < c.1)) && Memory.wf m

/-- The state with another memory. -/
def State.setMem (s : State) (m : Memory) : State :=
  { s with mem := m }

/-- `MemRead(addr, 1)`: "`AS[addr]` if `addr < 0x400`, else `raise Fatal(AddressOutOfRange)`" (00_scope.md R9). -/
def State.memRead (s : State) (a : Nat) : Except Cause Byte :=
  if a < Config.asSize then .ok (s.mem.read a) else .error .addressOutOfRange

/-- `MemWrite(addr, 1, v)` (00_scope.md R9; 20_memory.md R55). -/
def State.memWrite (s : State) (a : Nat) (v : Byte) : Except Cause State :=
  if a < Config.asSize then .ok (s.setMem (s.mem.write a v)) else .error .addressOutOfRange

/-- One `MemWrite` for each byte, at rising addresses from `a`. -/
def State.memWrites (s : State) (a : Nat) : List Byte → Except Cause State
  | [] => .ok s
  | v :: vs => do
    let s' ← s.memWrite a v
    s'.memWrites (a + 1) vs

/-! ### Registers -/

/-- `x[i]` (00_scope.md R9). -/
def State.reg (s : State) (i : Fin 16) : Byte :=
  s.regs[i]

/-- `x[i] <- v` (00_scope.md R9). -/
def State.setReg (s : State) (i : Fin 16) (v : Byte) : State :=
  { s with regs := s.regs.set i v }

/-- The Program Counter (10_state.md R26). -/
def State.pc (s : State) : Byte :=
  s.reg idxPC

/-- The Stack Pointer (10_state.md R29). -/
def State.sp (s : State) : Byte :=
  s.reg idxSP

/-- `pc <- target` (00_scope.md R9). -/
def State.setPC (s : State) (target : Byte) : State :=
  s.setReg idxPC target

/-- `SP <- v`. -/
def State.setSP (s : State) (v : Byte) : State :=
  s.setReg idxSP v

/-- The loop's advance, `PC <- (PC + n) mod 256` (10_state.md R27). -/
def State.advance (s : State) (n : Nat) : State :=
  s.setPC (s.pc + BitVec.ofNat 8 n)

/-! ### Run state -/

/-- `run <- Faulted(cause)` and nothing else (60_exceptions.md R252). -/
def State.faultedBy (s : State) (c : Cause) : State :=
  { s with run := .faulted c }

/-- Taking a fatal condition: the run state is `Faulted(cause)`, everything else as it was before the step, `PC` at the
faulting instruction (60_exceptions.md R252; the spec's decision D8, log 7). -/
def takeFatal (c : Cause) (s : State) : Host.Outcome State Fault Refusal :=
  .next (s.faultedBy c)

/-- The stop condition of `Exit`: the loop enters `Halted` (46_fetch_execute_loop.md R203). -/
def State.halt (s : State) : State :=
  { s with run := .halted }

/-- One instruction, from the state at the start of its step (46_fetch_execute_loop.md R201 after decode): `PC` is advanced
past it, then its execute rule runs on that state. A rule that raises a fatal condition leaves nothing behind: "nothing the
step would have written is written" (00_scope.md R9; log 21). -/
def execute (i : Instr) (s : State) (rule : State → Except Cause State) : Host.Outcome State Fault Refusal :=
  match rule (s.advance i.len) with
  | .ok t => .next t
  | .error c => takeFatal c s

/-! ### Channels -/

/-- What the byte-input source answers to a request (50_interfaces.md R221). -/
inductive InputAnswer where
  | bytes (b : List Byte)
  | exhausted
  /-- Neither arrived nor ended: the request waits (60_exceptions.md R249). -/
  | pending
  deriving DecidableEq, Repr

/-- The bytes that have arrived and are not consumed. -/
def State.available (s : State) : List Byte :=
  s.input.drop s.inPos

/-- `In.take(n)`: "the next `n` bytes of the input source, in arrival order" (00_scope.md R9), without their consumption. -/
def State.request (s : State) (n : Nat) : InputAnswer :=
  if n ≤ s.available.length then .bytes (s.available.take n)
  else if s.inputEnded then .exhausted
  else .pending

/-- `n` more input bytes are consumed. -/
def State.consume (s : State) (n : Nat) : State :=
  { s with inPos := s.inPos + n }

/-- The input position after a `ReadStdinStack` that ends in a fatal condition: a free value, between none and all of the
bytes its request could get (U15, log 14). -/
def State.afterFailedRead (s : State) (n : Nat) : State :=
  s.consume (min (Config.consumedByFailedRead s.available n) (min n s.available.length))

/-- `Out.put(v)` (00_scope.md R9). -/
def State.put (s : State) (v : Byte) : State :=
  { s with output := s.output ++ [v] }

/-! ### Fetch -/

/-- The decoder's cursor: the bytes of the Instruction region from `PC` up to offset 0xFF, as many of them as the longest
instruction takes; it neither wraps nor goes on into the Memory region (40_decoder.md R113, R117). -/
def State.cursor (s : State) : List Byte :=
  (List.range (min Config.maxLen (Config.instrEnd - s.pc.toNat))).map fun k => s.mem.read (s.pc.toNat + k)

/-- `decode(a)` at the address in `PC` (40_decoder.md R111). -/
def State.fetch (s : State) : DecodeResult :=
  decode s.cursor

/-- An instruction's bytes put where the next step fetches: at `PC`, or at offset 0 with `PC` there when the longest
instruction does not fit above `PC`; the run state is `Running`, since no other state has a step (log 22). -/
def State.placeInstr (s : State) (bytes : List Byte) : State :=
  let s' := if s.pc.toNat + Config.maxLen ≤ Config.instrEnd then s else s.setPC 0x00
  { s' with mem := s'.mem.writeList s'.pc.toNat bytes, run := .running }

end Sys2Proof.Machine
end

