-- ==== Sys2Proof/Machine/Compare.lean ====
section
/-! DEFINITION. The compare instructions (44_compare.md). Each meaning runs from the state at the start of its step. -/

namespace Sys2Proof.Machine

/-- `CmpReg8Const8`: "equal ← (reg == value)" (R170). -/
def execCmpReg8Const8 (reg : RegIndex) (value : Byte) (s : State) : Host.Outcome State Fault Refusal :=
  execute (.cmpReg8Const8 reg value) s fun s => do
    let r ← cell reg
    .ok (s.setEqual (equalOf (s.reg r) value))

/-- `CmpReg8Reg8`: "equal ← (regA == regB)" (R171). -/
def execCmpReg8Reg8 (regA regB : RegIndex) (s : State) : Host.Outcome State Fault Refusal :=
  execute (.cmpReg8Reg8 regA regB) s fun s => do
    let a ← cell regA
    let b ← cell regB
    .ok (s.setEqual (equalOf (s.reg a) (s.reg b)))

end Sys2Proof.Machine
end

