-- ==== Sys2Proof/Machine/Control.lean ====
section
/-! DEFINITION. The control instructions (41_control.md). Each meaning runs from the state at the start of its step. -/

namespace Sys2Proof.Machine

/-- `Exit`: "sets a stop condition; loop terminates after this instruction" (R130; 46_fetch_execute_loop.md R203). -/
def execExit (s : State) : Host.Outcome State Fault Refusal :=
  execute .exit s fun s => .ok s.halt

/-- `JumpIfNotEqual`: "if not equal: PC ← target (absolute offset into the Instruction region); else no-op" (R131). -/
def execJumpIfNotEqual (target : Byte) (s : State) : Host.Outcome State Fault Refusal :=
  execute (.jumpIfNotEqual target) s fun s => .ok (if s.equal then s else s.setPC target)

end Sys2Proof.Machine
end

