-- ==== Sys2Proof/Machine/MemoryAccess.lean ====
section
/-! DEFINITION. The memory instructions (43_memory.md). Each meaning runs from the state at the start of its step. -/

namespace Sys2Proof.Machine

/-- `XorMemReg8Const8`: the byte at the absolute address in `reg` is combined with `value`; no base is added (R160;
90_conflicts.md C3). -/
def execXorMemReg8Const8 (reg : RegIndex) (value : Byte) (s : State) : Host.Outcome State Fault Refusal :=
  execute (.xorMemReg8Const8 reg value) s fun s => do
    let r ← cell reg
    let ea := regAddr (s.reg r)
    let t ← s.memRead ea
    s.memWrite ea (t ^^^ value)

/-- `DerefAddressReg16Reg8`: the byte at the absolute composite address goes to `dest`; the three operands are resolved
first, the address is formed before `dest` is written (R161; 20_memory.md R59). -/
def execDerefAddressReg16Reg8 (addrHigh addrLow dest : RegIndex) (s : State) : Host.Outcome State Fault Refusal :=
  execute (.derefAddressReg16Reg8 addrHigh addrLow dest) s fun s => do
    let h ← cell addrHigh
    let l ← cell addrLow
    let d ← cell dest
    let v ← s.memRead (composite (s.reg h) (s.reg l)).toNat
    .ok (s.setReg d v)

end Sys2Proof.Machine
end

