-- ==== Sys2Proof/Machine/MoveArith.lean ====
section
/-! DEFINITION. The move, arithmetic and logic instructions (42_move_arith.md). Each meaning runs from the state at the
start of its step; every register operand is resolved before anything is written (R145). -/

namespace Sys2Proof.Machine

/-- `MovReg8Const8`: "reg ← value" (R140). -/
def execMovReg8Const8 (reg : RegIndex) (value : Byte) (s : State) : Host.Outcome State Fault Refusal :=
  execute (.movReg8Const8 reg value) s fun s => do
    let r ← cell reg
    .ok (s.setReg r value)

/-- `SubReg8Const8`: "reg ← reg − value (wrapping)" (R141, R146). -/
def execSubReg8Const8 (reg : RegIndex) (value : Byte) (s : State) : Host.Outcome State Fault Refusal :=
  execute (.subReg8Const8 reg value) s fun s => do
    let r ← cell reg
    .ok (s.setReg r (s.reg r - value))

/-- `AddReg8Const8`: "reg ← reg + value (wrapping)" (R142, R146). -/
def execAddReg8Const8 (reg : RegIndex) (value : Byte) (s : State) : Host.Outcome State Fault Refusal :=
  execute (.addReg8Const8 reg value) s fun s => do
    let r ← cell reg
    .ok (s.setReg r (s.reg r + value))

/-- `XorReg8Const8`: "reg ← reg ^ value" (R143). -/
def execXorReg8Const8 (reg : RegIndex) (value : Byte) (s : State) : Host.Outcome State Fault Refusal :=
  execute (.xorReg8Const8 reg value) s fun s => do
    let r ← cell reg
    .ok (s.setReg r (s.reg r ^^^ value))

/-- `XorReg8Reg8`: "dest ← dest ^ src", both read before the write (R144). -/
def execXorReg8Reg8 (dest src : RegIndex) (s : State) : Host.Outcome State Fault Refusal :=
  execute (.xorReg8Reg8 dest src) s fun s => do
    let d ← cell dest
    let r ← cell src
    .ok (s.setReg d (s.reg d ^^^ s.reg r))

end Sys2Proof.Machine
end

