-- ==== Sys2Proof/Machine/StackIo.lean ====
section
/-! DEFINITION. The stack and channel instructions (45_stack_io.md). Each meaning runs from the state at the start of its
step. -/

namespace Sys2Proof.Machine

/-- Where `ReadStdinStack` places the bytes it reads (R183): at the stack top, or at offset 0 of the Stack region. -/
def State.readBase (s : State) : Byte :=
  match s.placement with
  | .appendAtSP => s.sp
  | .absoluteZero => 0x00

/-- The push of a completed read: the bytes reversed, the last arrived lowest, then `SP <- (SP + count) mod 256` (R180). -/
def State.pushRead (s : State) (count : Byte) (b : List Byte) : Except Cause State := do
  let s' ← s.memWrites (stackAddr s.readBase) b.reverse
  .ok (s'.setSP (s.sp + count))

/-- `ReadStdinStack` (R180). A count of 0 asks for nothing (D20, log 18). While the source neither delivers nor ends the
step leaves the state as it is, and the next step is the same request (R249, log 13). The input is asked for before the
capacity is looked at (D7, log 6). -/
def execReadStdinStack (count : Byte) (s : State) : Host.Outcome State Fault Refusal :=
  if count = 0 then execute (.readStdinStack count) s fun s => .ok s
  else
    match s.request count.toNat with
    | .pending => .next s
    | .exhausted => takeFatal .inputExhausted (s.afterFailedRead count.toNat)
    | .bytes b =>
      if Config.stackSize < s.sp.toNat + count.toNat then
        takeFatal .stackOverflow (s.afterFailedRead count.toNat)
      else
        execute (.readStdinStack count) s fun s => (s.consume count.toNat).pushRead count b

/-- `PopReg8`: "fatal if SP is 0 (stack empty); else SP ← SP − 1, reg ← Stack[SP]", the operand checked first and `SP`
written before `reg` (R181; 90_conflicts.md C10). -/
def execPopReg8 (reg : RegIndex) (s : State) : Host.Outcome State Fault Refusal :=
  execute (.popReg8 reg) s fun s => do
    let r ← cell reg
    if s.sp = 0 then .error .stackEmpty
    else
      let s' := s.setSP (s.sp - 1)
      let v ← s'.memRead (stackAddr s'.sp)
      .ok (s'.setReg r v)

/-- `WriteStdoutConst8`: "writes the single byte (interpreted as a character code) to the byte-output sink" (R182). -/
def execWriteStdoutConst8 (byte : Byte) (s : State) : Host.Outcome State Fault Refusal :=
  execute (.writeStdoutConst8 byte) s fun s => .ok (s.put byte)

end Sys2Proof.Machine
end

