-- ==== Sys2Proof/Machine/Dispatch.lean ====
section
/-! DEFINITION. Dispatch: the decoded instruction selects exactly one execute rule by its opcode tag (40_decoder.md R116). -/

namespace Sys2Proof.Machine

def exec (i : Instr) (s : State) : Host.Outcome State Fault Refusal :=
  match i with
  | .exit => Sys2Proof.Machine.execExit s
  | .movReg8Const8 reg value => Sys2Proof.Machine.execMovReg8Const8 reg value s
  | .xorMemReg8Const8 reg value => Sys2Proof.Machine.execXorMemReg8Const8 reg value s
  | .cmpReg8Const8 reg value => Sys2Proof.Machine.execCmpReg8Const8 reg value s
  | .cmpReg8Reg8 regA regB => Sys2Proof.Machine.execCmpReg8Reg8 regA regB s
  | .jumpIfNotEqual target => Sys2Proof.Machine.execJumpIfNotEqual target s
  | .subReg8Const8 reg value => Sys2Proof.Machine.execSubReg8Const8 reg value s
  | .addReg8Const8 reg value => Sys2Proof.Machine.execAddReg8Const8 reg value s
  | .xorReg8Const8 reg value => Sys2Proof.Machine.execXorReg8Const8 reg value s
  | .xorReg8Reg8 dest src => Sys2Proof.Machine.execXorReg8Reg8 dest src s
  | .readStdinStack count => Sys2Proof.Machine.execReadStdinStack count s
  | .popReg8 reg => Sys2Proof.Machine.execPopReg8 reg s
  | .derefAddressReg16Reg8 addrHigh addrLow dest => Sys2Proof.Machine.execDerefAddressReg16Reg8 addrHigh addrLow dest s
  | .writeStdoutConst8 byte => Sys2Proof.Machine.execWriteStdoutConst8 byte s

end Sys2Proof.Machine
end

