-- ==== Sys2Proof/Machine/Step.lean ====
section
/-! DEFINITION. The step of the fetch-execute loop (46_fetch_execute_loop.md R201), and the host's placing of an instruction
where the next step fetches. -/

namespace Sys2Proof.Machine

/-- One step: decode at `PC`, then the instruction. The `PC` advance between the two is the first thing an instruction's
meaning does (log 21). A fatal condition of decode is taken (60_exceptions.md R242, R243). From an ended run there is no
step (R204, log 17). -/
def step (s : State) : Host.Outcome State Fault Refusal :=
  match s.run with
  | .halted => .fault .runHalted
  | .faulted c => .fault (.runFaulted c)
  | .running =>
    match s.fetch with
    | .unknownOpcode _ => takeFatal .unknownOpcode s
    | .exhausted => takeFatal .decodeExhausted s
    | .instr i _ => exec i s

/-- The state with the table word's instruction where `step` fetches next (log 22). -/
def State.withFetchWord (s : State) (nbits w : Nat) : State :=
  s.placeInstr (tableBytes nbits w)

end Sys2Proof.Machine
end

