-- ==== Sys2Proof/Machine/Loader.lean ====
section
/-! DEFINITION. What the outside does to the machine: the loader before the first step (50_interfaces.md R220, R226), the
input source between steps (R221), and the diagnostic of a faulted run (R223; 60_exceptions.md R241). -/

namespace Sys2Proof.Machine

/-- The start of a run: reset, then the image copied into the address space, "Byte `k` of the image becomes `AS[k]`"
(R220; 70_reset_and_hazards.md R270), with the run's input and placement (R226). An image that has not exactly 1024 bytes
is not run (92_eei_decisions.md D15; log 15). -/
def launch (image : List Byte) (input : List Byte) (inputEnded : Bool) (placement : ReadPlacement) :
    Except Refusal State :=
  if image.length = Config.asSize then
    .ok { State.reset with mem := Memory.ofImage 0 image, input, inputEnded, placement }
  else .error (.imageLength image.length)

/-- More input bytes arrive, behind those already there; a source that has ended delivers no more (R221). -/
def State.deliver (s : State) (b : List Byte) : State :=
  if s.inputEnded then s else { s with input := s.input ++ b }

/-- The source ends after the bytes already there (R221). -/
def State.closeInput (s : State) : State :=
  { s with inputEnded := true }

/-- What is recorded with a cause beside the address of the instruction (60_exceptions.md R241). -/
inductive FatalDetail where
  | nothing
  /-- F1: the byte. -/
  | byte (b : Byte)
  /-- F6: every operand byte that names no cell, in encoding order. -/
  | operands (b : List Byte)
  /-- F7: the 16-bit address. -/
  | address (a : Addr16)
  deriving DecidableEq, Repr

/-- "a diagnostic identifying the violated invariant" (50_interfaces.md R223). -/
structure Diagnostic where
  cause : Cause
  /-- The address of the instruction. -/
  address : Byte
  detail : FatalDetail
  deriving DecidableEq, Repr

/-- What R241 records with each cause, read from the state that the fatal condition froze. -/
def State.fatalDetail (s : State) : Cause → FatalDetail
  | .unknownOpcode => .byte (s.mem.read s.pc.toNat)
  | .registerIndexOutOfRange =>
    match s.fetch with
    | .instr i _ => .operands (i.regOperands.filter fun r => decide (16 ≤ r.toNat))
    | _ => .nothing
  | .addressOutOfRange =>
    match s.fetch with
    | .instr (.derefAddressReg16Reg8 h l d) _ =>
      let s' := s.advance (Instr.derefAddressReg16Reg8 h l d).len
      match cell h, cell l with
      | .ok h, .ok l => .address (composite (s'.reg h) (s'.reg l))
      | _, _ => .nothing
    | _ => .nothing
  | .decodeExhausted => .nothing
  | .stackOverflow => .nothing
  | .stackEmpty => .nothing
  | .inputExhausted => .nothing

/-- What a diagnostic of a faulted run may carry (60_exceptions.md R241; log 20). -/
def State.diagnostic (s : State) : Option Diagnostic :=
  match s.run with
  | .faulted c => some ⟨c, s.pc, s.fatalDetail c⟩
  | _ => none

end Sys2Proof.Machine
end

