-- ==== Sys2Proof/WellFormed.lean ====
section
/-! DEFINITION. When an instruction is one the machine can execute as written: every register operand names a cell
(30_encoding.md R86), and, where it is placed, it fits the Instruction region (R92). The decoder checks neither register
operands (40_decoder.md R114) nor placement beyond the end of its cursor (R113). -/

namespace Sys2Proof

/-- Every register operand names a cell (30_encoding.md R86; 10_state.md R24). -/
abbrev Instr.WellFormed (i : Instr) : Prop :=
  ∀ r ∈ i.regOperands, r.toNat < 16

/-- The instruction at offset `a` lies inside the Instruction region: "any offset `a` with `a + len <= 0x100`"
(30_encoding.md R92). -/
abbrev Instr.FitsAt (i : Instr) (a : Nat) : Prop :=
  a + i.len ≤ Config.instrEnd

end Sys2Proof
end

