-- ==== Sys2Proof/Safety.lean ====
section
/-! DEFINITION. The terms the claims are stated in: the invariant, runs and how they end, what an instruction reads as a
register operand, and what stays the same. -/

namespace Sys2Proof

open Machine

namespace Machine

/-- Memory is in canonical form and the input position is inside the input. Only states that no run reaches break it. -/
def State.Inv (s : State) : Prop :=
  s.mem.wf = true ∧ s.inPos ≤ s.input.length

/-- The run has not been ended by a fatal condition; after one only the cause and `Out` mean anything
(60_exceptions.md R252). -/
def State.NotFaulted (s : State) : Prop :=
  ∀ c, s.run ≠ .faulted c

/-- `t` follows from `s` by steps. -/
inductive Reaches : State → State → Prop where
  | refl (s : State) : Reaches s s
  | step {s t u : State} : Reaches s t → Machine.step t = .next u → Reaches s u

/-- "A run has ended normally when `run == Halted`" (46_fetch_execute_loop.md R206). -/
def EndsNormally (s : State) : Prop :=
  ∃ t, Reaches s t ∧ t.run = .halted

/-- A safe run: no state of it is faulted. -/
def SafeRun (s : State) : Prop :=
  ∀ t, Reaches s t → t.NotFaulted

/-- What an instruction of `n` bytes reads from cell `j`: for `PC` the address of the next sequential instruction
(10_state.md R27), for every other cell its content. -/
def State.operandValue (s : State) (n : Nat) (j : Fin 16) : Byte :=
  if j = idxPC then s.pc + BitVec.ofNat 8 n else s.reg j

/-- The registers of `t` after an instruction of `n` bytes at `s` whose destination is cell `d`: `d` holds `v` (as `PC` too),
`PC` is otherwise advanced, every other cell is unchanged. -/
def RegsAfterWrite (s t : State) (n : Nat) (d : Fin 16) (v : Byte) : Prop :=
  ∀ j, t.reg j = if j = d then v else s.operandValue n j

/-- The registers of `t` after an instruction of `n` bytes at `s` without a destination register: only `PC` is advanced. -/
def RegsAfterAdvance (s t : State) (n : Nat) : Prop :=
  ∀ j, t.reg j = s.operandValue n j

/-- Every byte of memory reads as before. -/
def SameMemory (s t : State) : Prop :=
  ∀ a, t.mem.read a = s.mem.read a

/-- The byte-input source is as before. -/
def SameInput (s t : State) : Prop :=
  t.input = s.input ∧ t.inPos = s.inPos ∧ t.inputEnded = s.inputEnded

/-- The flag, memory, the run state, both channels and the parameter of the run are as before: only registers changed. -/
def OnlyRegistersChange (s t : State) : Prop :=
  t.equal = s.equal ∧ SameMemory s t ∧ t.run = s.run ∧ SameInput s t ∧ t.output = s.output ∧ t.placement = s.placement

/-- The answer of one instruction or step is the fatal condition `c`: the run state says so and nothing was output. -/
def EndsFatally (o : Host.Outcome State Fault Refusal) (s : State) (c : Cause) : Prop :=
  ∃ t, o = .next t ∧ t.run = .faulted c ∧ t.output = s.output

/-- The instruction is a `ReadStdinStack` whose request is neither answered nor at the end of the input
(60_exceptions.md R249). -/
def Waits (i : Instr) (s : State) : Prop :=
  ∃ count : Byte, i = .readStdinStack count ∧ count ≠ 0 ∧ s.request count.toNat = .pending

/-- Nothing an instruction does, but for the flag itself, depends on the flag. -/
def IgnoresFlag (i : Instr) : Prop :=
  ∀ (s t : State) (b : Bool), exec i s = .next t →
    ∃ u, exec i { s with equal := b } = .next u ∧ { u with equal := t.equal } = t

end Machine

/-- The encoded length by opcode byte, as the rule lists it: "1 for 0x00; 2 for 0x05, 0x0A, 0x0B, 0x0D; 3 for 0x01, 0x02,
0x03, 0x04, 0x06, 0x07, 0x08, 0x09; 4 for 0x0C" (30_encoding.md R88). -/
def opcodeLength (op : Byte) : Nat :=
  if op = 0x00 then 1
  else if op = 0x05 ∨ op = 0x0A ∨ op = 0x0B ∨ op = 0x0D then 2
  else if op = 0x0C then 4
  else 3

/-- The byte at `PC`, the opcode byte of the next step. -/
def Machine.State.opcodeByte (s : State) : Byte :=
  s.mem.read s.pc.toNat

/-- When the step at `s` raises each fatal condition: the table of causes (60_exceptions.md R241) in the order of priority
(R251), so that at most one holds. -/
def FatalCondition (s : State) : Cause → Prop
  | .unknownOpcode => 13 < s.opcodeByte.toNat
  | .decodeExhausted => s.opcodeByte.toNat ≤ 13 ∧ 0x100 < s.pc.toNat + opcodeLength s.opcodeByte
  | .registerIndexOutOfRange => ∃ i n, s.fetch = .instr i n ∧ ¬ i.WellFormed
  | .stackEmpty => ∃ r n, s.fetch = .instr (.popReg8 r) n ∧ r.toNat < 16 ∧ s.sp = 0
  | .addressOutOfRange =>
    ∃ h l d n, s.fetch = .instr (.derefAddressReg16Reg8 h l d) n ∧ l.toNat < 16 ∧ d.toNat < 16 ∧
      ∃ hh : h.toNat < 16, 4 ≤ (s.operandValue 4 ⟨h.toNat, hh⟩).toNat
  | .inputExhausted =>
    ∃ count n, s.fetch = .instr (.readStdinStack count) n ∧ count ≠ 0 ∧ s.inputEnded = true ∧
      s.available.length < count.toNat
  | .stackOverflow =>
    ∃ count n, s.fetch = .instr (.readStdinStack count) n ∧ count ≠ 0 ∧ count.toNat ≤ s.available.length ∧
      0x100 < s.sp.toNat + count.toNat

/-- The destination register operand, where the instruction has one (10_state.md R25). -/
def Instr.destination : Instr → Option RegIndex
  | .exit => none
  | .movReg8Const8 reg _ => some reg
  | .xorMemReg8Const8 _ _ => none
  | .cmpReg8Const8 _ _ => none
  | .cmpReg8Reg8 _ _ => none
  | .jumpIfNotEqual _ => none
  | .subReg8Const8 reg _ => some reg
  | .addReg8Const8 reg _ => some reg
  | .xorReg8Const8 reg _ => some reg
  | .xorReg8Reg8 dest _ => some dest
  | .readStdinStack _ => none
  | .popReg8 reg => some reg
  | .derefAddressReg16Reg8 _ _ dest => some dest
  | .writeStdoutConst8 _ => none

/-- The instruction is an intervening jump at `s`: a taken `JumpIfNotEqual`, or a destination operand that names `PC`
(10_state.md R28). -/
def Instr.Jumps (i : Instr) (s : State) : Prop :=
  (∃ target, i = .jumpIfNotEqual target ∧ s.equal = false) ∨ (∃ r, i.destination = some r ∧ r.toNat = idxPC.val)

/-- A compare instruction. -/
def Instr.IsCompare : Instr → Prop
  | .exit => False
  | .movReg8Const8 _ _ => False
  | .xorMemReg8Const8 _ _ => False
  | .cmpReg8Const8 _ _ => True
  | .cmpReg8Reg8 _ _ => True
  | .jumpIfNotEqual _ => False
  | .subReg8Const8 _ _ => False
  | .addReg8Const8 _ _ => False
  | .xorReg8Const8 _ _ => False
  | .xorReg8Reg8 _ _ => False
  | .readStdinStack _ => False
  | .popReg8 _ => False
  | .derefAddressReg16Reg8 _ _ _ => False
  | .writeStdoutConst8 _ => False

end Sys2Proof
end

