-- ==== Sys2Proof/Certificates/Slice0/Obligations.lean ====
section
/-! DEFINITION. The statements. `exec i s` is the whole step of the instruction `i` from the state `s` at its start, the
advance of `PC` included (log 21). Where a statement rests on a decision of the spec or of the model and not on a sentence
of the source, its docstring names the decision and the log entry. -/

open Sys2Proof Sys2Proof.Machine

/-! ### Reset, the loader, the invariant -/

/-- R38, R270: reset zeroes the registers, the flag and memory, the loader's image is then the whole of memory, byte `k` at
`AS[k]`, and the first step fetches at 0. The input and the placement are parameters of the run. -/
def Obligations.RunStartsWithTheResetValues : Prop :=
  ((∀ j, State.reset.reg j = 0) ∧ State.reset.equal = false ∧ (∀ a, State.reset.mem.read a = 0) ∧
    State.reset.run = .running ∧ State.reset.inPos = 0 ∧ State.reset.output = []) ∧
  ∀ (image input : List Byte) (ended : Bool) (placement : ReadPlacement), image.length = 1024 →
    ∃ s, launch image input ended placement = .ok s ∧ (∀ j, s.reg j = 0) ∧ s.equal = false ∧
      (∀ k, k < 1024 → s.mem.read k = image.getD k 0) ∧ s.run = .running ∧ s.pc = 0 ∧ s.cursor = image.take 4 ∧
      s.input = input ∧ s.inPos = 0 ∧ s.inputEnded = ended ∧ s.output = [] ∧ s.placement = placement

/-- The spec's decision D15 (log 15): no run from an image of another length. -/
def Obligations.ImageOfAnotherLengthIsNotRun : Prop :=
  ∀ (image input : List Byte) (ended : Bool) (placement : ReadPlacement), image.length ≠ 1024 →
    launch image input ended placement = .error (.imageLength image.length)

/-- The model's invariant (log 23) holds at reset. -/
def Obligations.InvariantHoldsAtReset : Prop :=
  State.reset.Inv

/-- Every launched run starts in the model's invariant (log 23). -/
def Obligations.LaunchEstablishesTheInvariant : Prop :=
  ∀ (image input : List Byte) (ended : Bool) (placement : ReadPlacement) (s : State),
    launch image input ended placement = .ok s → s.Inv

/-- From every state, reached by a run or not: memory keeps its canonical form, inside the 1024 bytes, and the input
position stays inside the input (the model's invariant, log 23). After a fatal condition memory is what the spec's decision
D8 freezes (log 7), and after a read that failed the position is inside by the model's bound on a free value (log 14). -/
def Obligations.EveryStepKeepsTheInvariant : Prop :=
  ∀ s t : State, s.Inv → step s = .next t → t.Inv

/-! ### Encoding -/

/-- R90, both directions of the round-trip law, and the length. -/
def Obligations.DecodeAndEncodeAgree : Prop :=
  (∀ (i : Instr) (rest : List Byte), decode (encode i ++ rest) = .instr i i.len ∧ (encode i).length = i.len) ∧
  ∀ (bytes : List Byte) (i : Instr) (n : Nat), decode bytes = .instr i n → n = i.len ∧ encode i = bytes.take n

/-- One word of each opcode, written out from the encodings of 30_encoding.md R83 and R93 (95_test_vectors.md S1). -/
def Obligations.SpecWordsDecode : Prop :=
  decode [0x00] = .instr .exit 1 ∧
  decode [0x01, 0x00, 0x03] = .instr (.movReg8Const8 0 3) 3 ∧
  decode [0x02, 0x00, 0x20] = .instr (.xorMemReg8Const8 0 32) 3 ∧
  decode [0x03, 0x00, 0x05] = .instr (.cmpReg8Const8 0 5) 3 ∧
  decode [0x04, 0x00, 0x05] = .instr (.cmpReg8Reg8 0 5) 3 ∧
  decode [0x05, 0x03] = .instr (.jumpIfNotEqual 3) 2 ∧
  decode [0x06, 0x00, 0x01] = .instr (.subReg8Const8 0 1) 3 ∧
  decode [0x07, 0x04, 0x01] = .instr (.addReg8Const8 4 1) 3 ∧
  decode [0x08, 0x01, 0xFF] = .instr (.xorReg8Const8 1 255) 3 ∧
  decode [0x09, 0x00, 0x01] = .instr (.xorReg8Reg8 0 1) 3 ∧
  decode [0x0A, 0x03] = .instr (.readStdinStack 3) 2 ∧
  decode [0x0B, 0x00] = .instr (.popReg8 0) 2 ∧
  decode [0x0C, 0x03, 0x04, 0x05] = .instr (.derefAddressReg16Reg8 3 4 5) 4 ∧
  decode [0x0D, 0x59] = .instr (.writeStdoutConst8 89) 2

/-- R85: the illegal first bytes are 14 to 255, 242 of them, and no other pattern is illegal. -/
def Obligations.IllegalOpcodesAreExactlyAboveThirteen : Prop :=
  (∀ (b : Byte) (rest : List Byte), decode (b :: rest) = .unknownOpcode b ↔ 13 < b.toNat) ∧
  (∀ (b : Byte) (rest : List Byte), b.toNat ≤ 13 → opcodeLength b ≤ rest.length + 1 →
    ∃ i, decode (b :: rest) = .instr i (opcodeLength b)) ∧
  ((List.range 256).filter fun n => decode [BitVec.ofNat 8 n] = .unknownOpcode (BitVec.ofNat 8 n)).length = 242

/-- R112: whatever follows the byte and wherever it stands, the last offset included, so the check comes before the length
check; nothing is executed and `PC` is not advanced. -/
def Obligations.UnknownOpcodeEndsTheRun : Prop :=
  (∀ s : State, s.run = .running → 13 < s.opcodeByte.toNat →
    step s = .next { s with run := .faulted .unknownOpcode }) ∧
  ∀ (b : Byte) (rest rest' : List Byte), 13 < b.toNat → decode (b :: rest) = decode (b :: rest')

/-- R113: the cursor ends at offset 0xFF. An instruction that would pass it is not executed; one that ends at it decodes,
from the bytes at `PC` upward, and `PC` then wraps to 0. -/
def Obligations.InstructionPastTheRegionEndsTheRun : Prop :=
  ∀ s : State, s.run = .running → s.opcodeByte.toNat ≤ 13 →
    (0x100 < s.pc.toNat + opcodeLength s.opcodeByte → step s = .next { s with run := .faulted .decodeExhausted }) ∧
    (s.pc.toNat + opcodeLength s.opcodeByte ≤ 0x100 →
      ∃ i, s.fetch = .instr i (opcodeLength s.opcodeByte) ∧ step s = exec i s ∧
        ∀ k, k < opcodeLength s.opcodeByte → (encode i).getD k 0 = s.mem.read (s.pc.toNat + k)) ∧
    (s.pc.toNat + opcodeLength s.opcodeByte = 0x100 → (s.advance (opcodeLength s.opcodeByte)).pc = 0)

/-- The decoder sees `PC` and at most four bytes of the Instruction region, never the Memory region or the Stack region,
and no register but `PC` (40_decoder.md section 4, the totality rule). -/
def Obligations.FetchReadsOnlyTheInstructionRegion : Prop :=
  ∀ s t : State, t.pc = s.pc →
    (∀ a, s.pc.toNat ≤ a → a ≤ min (s.pc.toNat + 3) 0xFF → t.mem.read a = s.mem.read a) → t.fetch = s.fetch

/-! ### The step -/

/-- A step runs the decoded instruction. When the bytes at `PC` are those of an instruction that fits the Instruction
region, the step is `exec` of it, which moves past its bytes itself (log 21); so it is for whatever `fetch` answers. -/
def Obligations.StepRunsTheDecodedInstruction : Prop :=
  (∀ (s : State) (i : Instr), s.run = .running → i.FitsAt s.pc.toNat →
    (∀ k, k < i.len → s.mem.read (s.pc.toNat + k) = (encode i).getD k 0) →
    s.fetch = .instr i i.len ∧ step s = exec i s) ∧
  ∀ (s : State) (i : Instr) (n : Nat), s.run = .running → s.fetch = .instr i n → step s = exec i s

/-- The loader's stand-in for one instruction (log 22): wherever `PC` is and whatever has ended the run, a table word that
the decoder reads as `i` is run as `i` by the next step. -/
def Obligations.PlacedWordIsRunNext : Prop :=
  ∀ (s : State) (nbits w : Nat) (i : Instr), s.mem.wf = true → decodeTableWord nbits w = some i →
    step (s.withFetchWord nbits w) = exec i (s.withFetchWord nbits w)

/-- R88: the length is a function of the opcode byte, and `PC` advances by exactly it absent an intervening jump. An
instruction that ends the run by a fatal condition, or that still waits for input (the model's step for a wait, log 13),
has not advanced. -/
def Obligations.StepAdvancesByTheEncodedLength : Prop :=
  ∀ (s t : State) (i : Instr) (n : Nat), s.fetch = .instr i n →
    n = opcodeLength s.opcodeByte ∧ n = i.len ∧
    (exec i s = .next t → t.NotFaulted → ¬ Waits i s → ¬ i.Jumps s → t.pc = s.pc + BitVec.ofNat 8 n)

/-- In a running machine every step answers a next state, with one of the three outcomes of 00_scope.md section 4: still
running; halted, and then the instruction was `Exit`; or faulted, and then no step follows. Two of these next states are the
model's choice: the faulted one (the run state is the spec's decision D14, that it is a next state is log 5), and that of a
read whose bytes have neither arrived nor ended, which is still running (DEDUCED, log 13): for it the spec has the machine
stay inside the step, stuck while the input is withheld, and gives it no next state. -/
def Obligations.EveryRunningStepHasANextState : Prop :=
  ∀ s : State, s.run = .running →
    ∃ t, step s = .next t ∧
      (t.run = .running ∨ (t.run = .halted ∧ s.fetch = .instr .exit 1) ∨
        ∃ c, t.run = .faulted c ∧ ∀ u, step t ≠ .next u)

/-- R204, R253: no step from an ended run; it never goes on and never restarts. -/
def Obligations.EndedRunHasNoStep : Prop :=
  ∀ s : State, s.run ≠ .running → (∀ t, step s ≠ .next t) ∧ ∀ t, Reaches s t → t = s

/-! ### Control -/

/-- R130: the effect of `Exit`, that it is the only way to end normally, and that a zero byte at a decode position is
`Exit`. -/
def Obligations.ExitHaltsTheRun : Prop :=
  (∀ s : State, ∃ t, exec .exit s = .next t ∧ t.run = .halted ∧ RegsAfterAdvance s t 1 ∧ t.equal = s.equal ∧
    SameMemory s t ∧ SameInput s t ∧ t.output = s.output ∧ t.placement = s.placement ∧ ∀ u, step t ≠ .next u) ∧
  (∀ s t : State, step s = .next t → t.run = .halted → s.fetch = .instr .exit 1) ∧
  ∀ s : State, s.opcodeByte = 0x00 → s.fetch = .instr .exit 1

/-- R131: the jump is taken exactly when `equal` is false, to any target unchecked; no other instruction reads the flag; at
reset the flag is false. -/
def Obligations.JumpIfNotEqualTestsTheFlag : Prop :=
  (∀ (s : State) (target : Byte), ∃ t, exec (.jumpIfNotEqual target) s = .next t ∧
    (∀ j, t.reg j = if j = idxPC then (if s.equal = false then target else s.pc + 2) else s.reg j) ∧
    OnlyRegistersChange s t) ∧
  (∀ i : Instr, (∀ target, i ≠ .jumpIfNotEqual target) → IgnoresFlag i) ∧
  State.reset.equal = false

/-- R31: the flag is written by the two compares alone, by each on every execution, and read by `JumpIfNotEqual` alone. -/
def Obligations.FlagBelongsToComparesAndTheJump : Prop :=
  (∀ (i : Instr) (s t : State), exec i s = .next t → ¬ i.IsCompare → t.equal = s.equal) ∧
  (∀ (s t : State) (r : RegIndex) (v : Byte) (h : r.toNat < 16), exec (.cmpReg8Const8 r v) s = .next t →
    t.equal = decide (s.operandValue 3 ⟨r.toNat, h⟩ = v)) ∧
  (∀ (s t : State) (a b : RegIndex) (ha : a.toNat < 16) (hb : b.toNat < 16), exec (.cmpReg8Reg8 a b) s = .next t →
    t.equal = decide (s.operandValue 3 ⟨a.toNat, ha⟩ = s.operandValue 3 ⟨b.toNat, hb⟩)) ∧
  ∀ i : Instr, (∀ target, i ≠ .jumpIfNotEqual target) → IgnoresFlag i

/-! ### Move, arithmetic, logic

The register operand is any of the 16 cells (`PC`, `SP` and the reserved cells included: 10_state.md section 2); operand
bytes above 15 are the statement `OutOfRangeRegisterOperandEndsTheRun`. The numbers of `PC` and `SP` are the spec's
decision D1 (log 1). -/

/-- `MovReg8Const8`: result, completion and frame (42_move_arith.md section 2). -/
def Obligations.MoveWritesTheLiteral : Prop :=
  ∀ (s : State) (r : RegIndex) (v : Byte) (h : r.toNat < 16), ∃ t, exec (.movReg8Const8 r v) s = .next t ∧
    RegsAfterWrite s t 3 ⟨r.toNat, h⟩ v ∧ OnlyRegistersChange s t

/-- `SubReg8Const8`: result modulo 256, completion and frame (42_move_arith.md section 2). -/
def Obligations.SubtractWritesTheDifference : Prop :=
  ∀ (s : State) (r : RegIndex) (v : Byte) (h : r.toNat < 16), ∃ t, exec (.subReg8Const8 r v) s = .next t ∧
    RegsAfterWrite s t 3 ⟨r.toNat, h⟩
      (BitVec.ofNat 8 ((s.operandValue 3 ⟨r.toNat, h⟩).toNat + 256 - v.toNat)) ∧ OnlyRegistersChange s t

/-- `AddReg8Const8`: result modulo 256, completion and frame (42_move_arith.md section 2). -/
def Obligations.AddWritesTheSum : Prop :=
  ∀ (s : State) (r : RegIndex) (v : Byte) (h : r.toNat < 16), ∃ t, exec (.addReg8Const8 r v) s = .next t ∧
    RegsAfterWrite s t 3 ⟨r.toNat, h⟩
      (BitVec.ofNat 8 ((s.operandValue 3 ⟨r.toNat, h⟩).toNat + v.toNat)) ∧ OnlyRegistersChange s t

/-- `XorReg8Const8`: result, completion and frame (42_move_arith.md section 2). -/
def Obligations.XorConstWritesTheExclusiveOr : Prop :=
  ∀ (s : State) (r : RegIndex) (v : Byte) (h : r.toNat < 16), ∃ t, exec (.xorReg8Const8 r v) s = .next t ∧
    RegsAfterWrite s t 3 ⟨r.toNat, h⟩ (s.operandValue 3 ⟨r.toNat, h⟩ ^^^ v) ∧ OnlyRegistersChange s t

/-- `XorReg8Reg8`: both operands are read before the write; result, completion and frame (42_move_arith.md section 2). -/
def Obligations.XorRegWritesTheExclusiveOr : Prop :=
  ∀ (s : State) (d r : RegIndex) (hd : d.toNat < 16) (hr : r.toNat < 16), ∃ t, exec (.xorReg8Reg8 d r) s = .next t ∧
    RegsAfterWrite s t 3 ⟨d.toNat, hd⟩ (s.operandValue 3 ⟨d.toNat, hd⟩ ^^^ s.operandValue 3 ⟨r.toNat, hr⟩) ∧
    OnlyRegistersChange s t

/-- R284: overflow and underflow of the add, the subtract and the `PC` advance wrap and never end the run. -/
def Obligations.OverflowNeverAborts : Prop :=
  ∀ (s : State) (r : RegIndex) (v : Byte) (h : r.toNat < 16),
    (∃ t, exec (.addReg8Const8 r v) s = .next t ∧ t.run = s.run ∧
      (t.reg ⟨r.toNat, h⟩).toNat = ((s.operandValue 3 ⟨r.toNat, h⟩).toNat + v.toNat) % 256) ∧
    (∃ t, exec (.subReg8Const8 r v) s = .next t ∧ t.run = s.run ∧
      (t.reg ⟨r.toNat, h⟩).toNat = ((s.operandValue 3 ⟨r.toNat, h⟩).toNat + 256 - v.toNat) % 256) ∧
    ∀ i : Instr, (s.advance i.len).run = s.run ∧ (s.advance i.len).pc.toNat = (s.pc.toNat + i.len) % 256

/-! ### Compare -/

/-- `CmpReg8Const8`: the flag, completion and frame (44_compare.md). -/
def Obligations.CompareConstSetsTheFlag : Prop :=
  ∀ (s : State) (r : RegIndex) (v : Byte) (h : r.toNat < 16), ∃ t, exec (.cmpReg8Const8 r v) s = .next t ∧
    t.equal = decide (s.operandValue 3 ⟨r.toNat, h⟩ = v) ∧ RegsAfterAdvance s t 3 ∧ SameMemory s t ∧ t.run = s.run ∧
    SameInput s t ∧ t.output = s.output ∧ t.placement = s.placement

/-- `CmpReg8Reg8`: the flag, completion and frame (44_compare.md). -/
def Obligations.CompareRegSetsTheFlag : Prop :=
  ∀ (s : State) (a b : RegIndex) (ha : a.toNat < 16) (hb : b.toNat < 16), ∃ t, exec (.cmpReg8Reg8 a b) s = .next t ∧
    t.equal = decide (s.operandValue 3 ⟨a.toNat, ha⟩ = s.operandValue 3 ⟨b.toNat, hb⟩) ∧ RegsAfterAdvance s t 3 ∧
    SameMemory s t ∧ t.run = s.run ∧ SameInput s t ∧ t.output = s.output ∧ t.placement = s.placement

/-! ### Memory -/

/-- `XorMemReg8Const8`: the one byte at the register's value, always in the Instruction region, is combined with the
literal; completion and frame (43_memory.md; 90_conflicts.md C3). The premise holds in every state a run reaches
(`EveryStepKeepsTheInvariant`). -/
def Obligations.XorMemChangesOneInstructionByte : Prop :=
  ∀ (s : State) (r : RegIndex) (v : Byte) (h : r.toNat < 16), s.mem.wf = true →
    regAddr (s.operandValue 3 ⟨r.toNat, h⟩) < 0x100 ∧
    ∃ t, exec (.xorMemReg8Const8 r v) s = .next t ∧
      (∀ a, t.mem.read a =
        if a = regAddr (s.operandValue 3 ⟨r.toNat, h⟩) then s.mem.read a ^^^ v else s.mem.read a) ∧
      RegsAfterAdvance s t 3 ∧ t.equal = s.equal ∧ t.run = s.run ∧ SameInput s t ∧ t.output = s.output ∧
      t.placement = s.placement

/-- `DerefAddressReg16Reg8` with an address inside the address space: high register times 256 plus low register, formed
from the values before the write; result, completion and frame (43_memory.md; 20_memory.md section 2). -/
def Obligations.LoadReadsTheCompositeAddress : Prop :=
  ∀ (s : State) (h l d : RegIndex) (hh : h.toNat < 16) (hl : l.toNat < 16) (hd : d.toNat < 16),
    (s.operandValue 4 ⟨h.toNat, hh⟩).toNat * 256 + (s.operandValue 4 ⟨l.toNat, hl⟩).toNat < 0x400 →
    ∃ t, exec (.derefAddressReg16Reg8 h l d) s = .next t ∧
      RegsAfterWrite s t 4 ⟨d.toNat, hd⟩
        (s.mem.read ((s.operandValue 4 ⟨h.toNat, hh⟩).toNat * 256 + (s.operandValue 4 ⟨l.toNat, hl⟩).toNat)) ∧
      OnlyRegistersChange s t

/-- `DerefAddressReg16Reg8` with a high register of 4 or more, that is an address of 0x400 or above: the spec's decision D4
(log 4). -/
def Obligations.LoadBeyondTheAddressSpaceEndsTheRun : Prop :=
  ∀ (s : State) (h l d : RegIndex) (hh : h.toNat < 16), l.toNat < 16 → d.toNat < 16 →
    4 ≤ (s.operandValue 4 ⟨h.toNat, hh⟩).toNat →
    EndsFatally (exec (.derefAddressReg16Reg8 h l d) s) s .addressOutOfRange

/-- Over a whole run from a state of the invariant, the Memory region [0x100, 0x300) keeps its bytes (20_memory.md section
1, consequence b of the table of access paths); in a faulted state, as frozen by the spec's decision D8 (log 7). -/
def Obligations.RunsNeverWriteTheMemoryRegion : Prop :=
  ∀ s t : State, s.Inv → Reaches s t → ∀ a, 0x100 ≤ a → a < 0x300 → t.mem.read a = s.mem.read a

/-- A byte of memory changes only by `XorMemReg8Const8`, in the Instruction region, or by `ReadStdinStack`, in the Stack
region (20_memory.md section 1); no step that ends in a fatal condition changes one (the spec's decision D8, log 7). -/
def Obligations.MemoryHasOnlyTwoWriters : Prop :=
  ∀ (i : Instr) (s t : State) (a : Nat), s.mem.wf = true → exec i s = .next t → t.mem.read a ≠ s.mem.read a →
    (∃ r v, i = .xorMemReg8Const8 r v ∧ a < 0x100) ∨ (∃ count, i = .readStdinStack count ∧ 0x300 ≤ a ∧ a < 0x400)

/-- Self-modifying code acts at once (the spec's decision D9, log 8): when `XorMemReg8Const8` turns the opcode byte of the
next sequential instruction into 0x00, the very next step is `Exit`. -/
def Obligations.PatchedOpcodeIsExecutedNext : Prop :=
  ∀ (s : State) (v : Byte), s.Inv → s.run = .running → s.mem.read (s.pc + 3).toNat = v →
    ∃ t u, exec (.xorMemReg8Const8 (BitVec.ofNat 8 idxPC.val) v) s = .next t ∧ step t = .next u ∧ u.run = .halted

/-! ### Stack and channels -/

/-- `ReadStdinStack` whose bytes have arrived and fit: the last byte that arrived lies lowest, from the base of the
placement, `SP` goes up by `count`, modulo 256 when the region is filled exactly (the spec's decision D11, log 10);
completion and frame. For BOTH placements, at the stack top and at offset 0 (the open parameter, D10, log 9). -/
def Obligations.ReadPushesTheInputReversed : Prop :=
  ∀ (s : State) (count : Byte), s.mem.wf = true → s.inPos + count.toNat ≤ s.input.length →
    s.sp.toNat + count.toNat ≤ 256 →
    stackAddr s.readBase = 0x300 + (if s.placement = .appendAtSP then s.sp.toNat else 0) ∧
    ∃ t, exec (.readStdinStack count) s = .next t ∧
      (∀ a, t.mem.read a =
        if stackAddr s.readBase ≤ a ∧ a < stackAddr s.readBase + count.toNat then
          s.input.getD (s.inPos + (count.toNat - 1 - (a - stackAddr s.readBase))) 0
        else s.mem.read a) ∧
      (∀ j, t.reg j = if j = idxSP then s.sp + count else s.operandValue 2 j) ∧
      t.input = s.input ∧ t.inPos = s.inPos + count.toNat ∧ t.inputEnded = s.inputEnded ∧ t.equal = s.equal ∧
      t.run = s.run ∧ t.output = s.output ∧ t.placement = s.placement

/-- `ReadStdinStack` of no bytes asks for nothing, whatever the input and `SP` (the spec's decision D20, log 18). -/
def Obligations.ReadOfNoBytesOnlyAdvances : Prop :=
  ∀ s : State, ∃ t, exec (.readStdinStack 0) s = .next t ∧ RegsAfterAdvance s t 2 ∧ OnlyRegistersChange s t

/-- `ReadStdinStack` when the input ends first, even with no room for it, and when the bytes are there but do not fit (the
order is the spec's decision D7, log 6). How much input it has then consumed is a free value (log 14): nothing is said. -/
def Obligations.ReadThatFailsEndsTheRun : Prop :=
  ∀ (s : State) (count : Byte), count ≠ 0 →
    (s.inputEnded = true → s.input.length < s.inPos + count.toNat →
      EndsFatally (exec (.readStdinStack count) s) s .inputExhausted) ∧
    (s.inPos + count.toNat ≤ s.input.length → 256 < s.sp.toNat + count.toNat →
      EndsFatally (exec (.readStdinStack count) s) s .stackOverflow)

/-- `ReadStdinStack` while its bytes have neither arrived nor ended leaves the state as it is (the model's step for a wait,
log 13); once enough bytes are delivered the request is answered with the next `count` of them, and once the source ends
it is fatal. -/
def Obligations.ReadWaitsForItsBytes : Prop :=
  ∀ (s : State) (count : Byte), count ≠ 0 → s.inputEnded = false → s.input.length < s.inPos + count.toNat →
    exec (.readStdinStack count) s = .next s ∧
    (∀ b : List Byte, s.inPos + count.toNat ≤ (s.input ++ b).length →
      (s.deliver b).request count.toNat = .bytes (((s.input ++ b).drop s.inPos).take count.toNat)) ∧
    EndsFatally (exec (.readStdinStack count) s.closeInput) s .inputExhausted

/-- With an empty stack the two placements agree (the open parameter, D10, log 9): the step is the same whichever the run
has, completing, waiting or fatal. -/
def Obligations.PlacementsAgreeOnAnEmptyStack : Prop :=
  ∀ (s t : State) (count : Byte) (p : ReadPlacement), s.sp = 0 → exec (.readStdinStack count) s = .next t →
    exec (.readStdinStack count) { s with placement := p } = .next { t with placement := p }

/-- `PopReg8` of a non-empty stack: `SP` goes down by one, then the destination, `SP` itself too, takes the byte at the new
`SP`; completion and frame (45_stack_io.md). -/
def Obligations.PopReadsBelowTheStackPointer : Prop :=
  ∀ (s : State) (r : RegIndex) (h : r.toNat < 16), s.sp ≠ 0 →
    ∃ t, exec (.popReg8 r) s = .next t ∧
      (∀ j, t.reg j =
        if j = ⟨r.toNat, h⟩ then s.mem.read (0x300 + (s.sp.toNat - 1))
        else if j = idxSP then s.sp - 1
        else s.operandValue 2 j) ∧
      OnlyRegistersChange s t

/-- `PopReg8` of an empty stack, with an operand that names a cell (45_stack_io.md; 60_exceptions.md section 1). -/
def Obligations.PopOfAnEmptyStackEndsTheRun : Prop :=
  ∀ (s : State) (r : RegIndex), r.toNat < 16 → s.sp = 0 → EndsFatally (exec (.popReg8 r) s) s .stackEmpty

/-- The first byte that arrived is popped first: into any cell, after a read that leaves `SP` below 256 and whose bytes lie
at the stack top (the default placement, or an empty stack; log 9). -/
def Obligations.FirstByteToArriveIsPoppedFirst : Prop :=
  ∀ (s t : State) (count : Byte) (r : RegIndex) (h : r.toNat < 16), s.mem.wf = true → count ≠ 0 →
    s.inPos + count.toNat ≤ s.input.length → s.sp.toNat + count.toNat ≤ 255 →
    s.placement = .appendAtSP ∨ s.sp = 0 → exec (.readStdinStack count) s = .next t →
    ∃ u, exec (.popReg8 r) t = .next u ∧ u.reg ⟨r.toNat, h⟩ = s.input.getD s.inPos 0

/-- `WriteStdoutConst8`: exactly the operand byte is appended (the spec's decision D12, log 11); completion and frame. -/
def Obligations.WriteAppendsItsByte : Prop :=
  ∀ (s : State) (byte : Byte), ∃ t, exec (.writeStdoutConst8 byte) s = .next t ∧ t.output = s.output ++ [byte] ∧
    RegsAfterAdvance s t 2 ∧ t.equal = s.equal ∧ SameMemory s t ∧ t.run = s.run ∧ SameInput s t ∧
    t.placement = s.placement

/-- Nothing depends on what has been written to the sink, and a step appends one byte, by `WriteStdoutConst8`, or none, a
step that ends the run by a fatal condition among them (50_interfaces.md; 60_exceptions.md section 4). -/
def Obligations.OutputIsNeverRead : Prop :=
  ∀ s t : State, step s = .next t →
    (∀ before : List Byte, step { s with output := before ++ s.output } = .next { t with output := before ++ t.output }) ∧
    (t.output = s.output ∨
      ∃ b, s.fetch = .instr (.writeStdoutConst8 b) 2 ∧ t.output = s.output ++ [b] ∧ t.run = s.run)

/-- Only `ReadStdinStack` consumes input, forward and no more than it asks for (10_state.md section 6; 50_interfaces.md); no
step changes the bytes of the source or its end (how a state holds them is the model's choice, log 12) or the placement (a
field that no step writes is the model's choice, log 9). For a read that ends in `InputExhausted` or `StackOverflow` the spec
leaves open what is consumed: that the position then moves forward, by at most `count`, is the bound the model sets on its
free value (log 14), not the spec's. -/
def Obligations.OnlyReadsConsumeInput : Prop :=
  ∀ s t : State, step s = .next t →
    t.input = s.input ∧ t.inputEnded = s.inputEnded ∧ t.placement = s.placement ∧ s.inPos ≤ t.inPos ∧
    (t.inPos ≠ s.inPos →
      ∃ count : Byte, s.fetch = .instr (.readStdinStack count) 2 ∧ t.inPos ≤ s.inPos + count.toNat)

/-! ### Fatal conditions -/

/-- A register operand byte above 15 ends the run, whatever else would have gone wrong in the instruction (the spec's
decisions D2 and D6, logs 2 and 6). -/
def Obligations.OutOfRangeRegisterOperandEndsTheRun : Prop :=
  ∀ (i : Instr) (s : State), ¬ i.WellFormed → EndsFatally (exec i s) s .registerIndexOutOfRange

/-- A step of a running machine raises a cause exactly when the table of causes, in the order of priority, says so; so
nothing else ever ends a run by a fatal condition (60_exceptions.md sections 1 and 3; the names, two of the conditions and
the order are the spec's decisions D2, D4 to D7, logs 2, 4, 5, 6). -/
def Obligations.FatalConditionsAreExactlyTheTable : Prop :=
  ∀ (s : State) (c : Cause), s.run = .running →
    ((∃ t, step s = .next t ∧ t.run = .faulted c) ↔ FatalCondition s c)

/-- The diagnostic of a run that a fatal condition has just ended names the cause and the address of the instruction, and
for an unknown opcode the byte (60_exceptions.md section 1, "recorded with the cause"; the function is the model's,
log 20, over the state that the spec's decision D8 freezes, log 7). -/
def Obligations.DiagnosticNamesCauseAndAddress : Prop :=
  ∀ (s t : State) (c : Cause), s.run = .running → step s = .next t → t.run = .faulted c →
    ∃ d, t.diagnostic = some d ∧ d.cause = c ∧ d.address = s.pc ∧
      (c = .unknownOpcode → d.detail = .byte s.opcodeByte)
end

