-- ==== Sys2Proof/Laws/Memory.lean ====
section
/-! SUPPORT. The laws of memory: read after write, and that every operation keeps the canonical form. -/

namespace Sys2Proof.Machine

@[simp] theorem Memory.read_nil (a : Nat) : Memory.read [] a = Memory.unlisted := rfl

theorem Memory.wf_cons {k : Nat} {v : Byte} {m : Memory} :
    Memory.wf ((k, v) :: m) = true ↔
      k < Config.asSize ∧ v ≠ Memory.unlisted ∧ (∀ c ∈ m, k < c.1) ∧ m.wf = true := by
  simp [Memory.wf, and_assoc]

/-- Below its first listed address a memory reads as unlisted. -/
theorem Memory.read_below {m : Memory} {a : Nat} (h : ∀ c ∈ m, a < c.1) : m.read a = Memory.unlisted := by
  induction m with
  | nil => rfl
  | cons c m ih =>
    obtain ⟨k, v⟩ := c
    have hk : a < k := h (k, v) (List.mem_cons_self ..)
    have hne : a ≠ k := by omega
    simp only [Memory.read, if_neg hne]
    exact ih fun c hc => h c (List.mem_cons_of_mem _ hc)

theorem Memory.read_put {m : Memory} {a : Nat} (h : ∀ c ∈ m, a < c.1) (v : Byte) (x : Nat) :
    (Memory.put a v m).read x = if x = a then v else m.read x := by
  by_cases hv : v = Memory.unlisted
  · by_cases hx : x = a
    · simp [Memory.put, hv, hx, Memory.read_below h]
    · simp [Memory.put, hv, hx]
  · simp [Memory.put, hv, Memory.read]

/-- Read after write: the address written reads as the byte written, every other address as before. -/
theorem Memory.read_write {m : Memory} (hm : m.wf = true) (a : Nat) (v : Byte) (x : Nat) :
    (m.write a v).read x = if x = a then v else m.read x := by
  induction m with
  | nil => exact Memory.read_put (by simp) v x
  | cons c m ih =>
    obtain ⟨k, w⟩ := c
    obtain ⟨-, -, hlt, hwf⟩ := Memory.wf_cons.1 hm
    simp only [Memory.write]
    split
    · refine Memory.read_put ?_ v x
      intro c hc
      rcases List.mem_cons.1 hc with rfl | hc
      · assumption
      · exact lt_trans ‹a < k› (hlt c hc)
    · split
      · subst_vars
        rw [Memory.read_put hlt]
        by_cases hx : x = k <;> simp [Memory.read, hx]
      · simp only [Memory.read, ih hwf]
        by_cases hx : x = k
        · simp [hx]
          omega
        · simp [hx]

theorem Memory.mem_put {m : Memory} {a : Nat} {v : Byte} {c : Host.Cell} (h : c ∈ Memory.put a v m) :
    c.1 = a ∨ c ∈ m := by
  unfold Memory.put at h
  split at h
  · exact .inr h
  · rcases List.mem_cons.1 h with rfl | h
    · exact .inl rfl
    · exact .inr h

theorem Memory.mem_write {m : Memory} {a : Nat} {v : Byte} {c : Host.Cell} (h : c ∈ m.write a v) :
    c.1 = a ∨ c ∈ m := by
  induction m with
  | nil => exact Memory.mem_put h
  | cons d m ih =>
    obtain ⟨k, w⟩ := d
    simp only [Memory.write] at h
    split at h
    · exact Memory.mem_put h
    · split at h
      · exact (Memory.mem_put h).imp_right (List.mem_cons_of_mem _)
      · rcases List.mem_cons.1 h with rfl | h
        · exact .inr (List.mem_cons_self ..)
        · exact (ih h).imp_right (List.mem_cons_of_mem _)

theorem Memory.wf_put {m : Memory} {a : Nat} (hm : m.wf = true) (ha : a < Config.asSize) (h : ∀ c ∈ m, a < c.1)
    (v : Byte) : (Memory.put a v m).wf = true := by
  unfold Memory.put
  split
  · exact hm
  · exact Memory.wf_cons.2 ⟨ha, ‹_›, h, hm⟩

/-- A write keeps the canonical form. -/
theorem Memory.wf_write {m : Memory} (hm : m.wf = true) {a : Nat} (ha : a < Config.asSize) (v : Byte) :
    (m.write a v).wf = true := by
  induction m with
  | nil => exact Memory.wf_put hm ha (by simp) v
  | cons c m ih =>
    obtain ⟨k, w⟩ := c
    obtain ⟨hk, hw, hlt, hwf⟩ := Memory.wf_cons.1 hm
    simp only [Memory.write]
    split
    · refine Memory.wf_put hm ha ?_ v
      intro c hc
      rcases List.mem_cons.1 hc with rfl | hc
      · assumption
      · exact lt_trans ‹a < k› (hlt c hc)
    · split
      · subst_vars
        exact Memory.wf_put hwf ha hlt v
      · refine Memory.wf_cons.2 ⟨hk, hw, fun c hc => ?_, ih hwf⟩
        rcases Memory.mem_write hc with h | h
        · omega
        · exact hlt c h

/-- Consecutive writes keep the canonical form. -/
theorem Memory.wf_writeList {m : Memory} (hm : m.wf = true) {a : Nat} {vs : List Byte}
    (h : a + vs.length ≤ Config.asSize) : (m.writeList a vs).wf = true := by
  induction vs generalizing m a with
  | nil => exact hm
  | cons v vs ih =>
    simp only [List.length_cons] at h
    exact ih (Memory.wf_write hm (by omega) v) (by omega)

/-- Consecutive writes: the bytes written read back in order, every other address reads as before. -/
theorem Memory.read_writeList {m : Memory} (hm : m.wf = true) {a : Nat} {vs : List Byte}
    (h : a + vs.length ≤ Config.asSize) (x : Nat) :
    (m.writeList a vs).read x = if a ≤ x ∧ x < a + vs.length then vs.getD (x - a) Memory.unlisted else m.read x := by
  induction vs generalizing m a with
  | nil => simp [Memory.writeList]
  | cons v vs ih =>
    simp only [List.length_cons] at h
    simp only [Memory.writeList, List.length_cons]
    rw [ih (Memory.wf_write hm (by omega) v) (by omega), Memory.read_write hm]
    by_cases h1 : x = a
    · subst h1
      simp
    · by_cases h2 : a ≤ x ∧ x < a + (vs.length + 1)
      · have h3 : a + 1 ≤ x ∧ x < a + 1 + vs.length := by omega
        have h4 : x - a = (x - (a + 1)) + 1 := by omega
        rw [if_pos h2, if_pos h3, h4, List.getD_cons_succ]
      · have h3 : ¬ (a + 1 ≤ x ∧ x < a + 1 + vs.length) := by omega
        rw [if_neg h2, if_neg h3, if_neg h1]

theorem Memory.mem_ofImage {a : Nat} {vs : List Byte} {c : Host.Cell} (h : c ∈ Memory.ofImage a vs) : a ≤ c.1 := by
  induction vs generalizing a with
  | nil => simp [Memory.ofImage] at h
  | cons v vs ih =>
    rcases Memory.mem_put h with h | h
    · omega
    · have := ih h
      omega

/-- An image as memory is in canonical form. -/
theorem Memory.wf_ofImage {a : Nat} {vs : List Byte} (h : a + vs.length ≤ Config.asSize) :
    (Memory.ofImage a vs).wf = true := by
  induction vs generalizing a with
  | nil => rfl
  | cons v vs ih =>
    simp only [List.length_cons] at h
    exact Memory.wf_put (ih (by omega)) (by omega) (fun c hc => Memory.mem_ofImage hc) v

/-- An image as memory reads as the image's bytes. -/
theorem Memory.read_ofImage (a : Nat) (vs : List Byte) (x : Nat) :
    (Memory.ofImage a vs).read x = if a ≤ x then vs.getD (x - a) Memory.unlisted else Memory.unlisted := by
  induction vs generalizing a with
  | nil => simp [Memory.ofImage]
  | cons v vs ih =>
    rw [Memory.ofImage, Memory.read_put fun c hc => Memory.mem_ofImage hc, ih]
    by_cases h1 : x = a
    · simp [h1]
    · by_cases h2 : a ≤ x
      · have h3 : a + 1 ≤ x := by omega
        have h4 : x - a = (x - (a + 1)) + 1 := by omega
        rw [if_neg h1, if_pos h3, if_pos h2, h4, List.getD_cons_succ]
      · have h3 : ¬ a + 1 ≤ x := by omega
        rw [if_neg h1, if_neg h3, if_neg h2]

end Sys2Proof.Machine
end

