-- ==== Sys2Proof/Laws/State.lean ====
section
/-! SUPPORT. One lemma for each field and each update of State, and the laws of the register file. -/

namespace Sys2Proof.Machine

section Fields
variable (s : State) (i : Fin 16) (v : Byte) (n : Nat) (b : Bool) (m : Memory) (c : Cause)

@[simp] theorem State.setReg_equal : (s.setReg i v).equal = s.equal := rfl
@[simp] theorem State.setReg_mem : (s.setReg i v).mem = s.mem := rfl
@[simp] theorem State.setReg_run : (s.setReg i v).run = s.run := rfl
@[simp] theorem State.setReg_input : (s.setReg i v).input = s.input := rfl
@[simp] theorem State.setReg_inPos : (s.setReg i v).inPos = s.inPos := rfl
@[simp] theorem State.setReg_inputEnded : (s.setReg i v).inputEnded = s.inputEnded := rfl
@[simp] theorem State.setReg_output : (s.setReg i v).output = s.output := rfl
@[simp] theorem State.setReg_placement : (s.setReg i v).placement = s.placement := rfl

@[simp] theorem State.setPC_equal : (s.setPC v).equal = s.equal := rfl
@[simp] theorem State.setPC_mem : (s.setPC v).mem = s.mem := rfl
@[simp] theorem State.setPC_run : (s.setPC v).run = s.run := rfl
@[simp] theorem State.setPC_input : (s.setPC v).input = s.input := rfl
@[simp] theorem State.setPC_inPos : (s.setPC v).inPos = s.inPos := rfl
@[simp] theorem State.setPC_inputEnded : (s.setPC v).inputEnded = s.inputEnded := rfl
@[simp] theorem State.setPC_output : (s.setPC v).output = s.output := rfl
@[simp] theorem State.setPC_placement : (s.setPC v).placement = s.placement := rfl

@[simp] theorem State.setSP_equal : (s.setSP v).equal = s.equal := rfl
@[simp] theorem State.setSP_mem : (s.setSP v).mem = s.mem := rfl
@[simp] theorem State.setSP_run : (s.setSP v).run = s.run := rfl
@[simp] theorem State.setSP_input : (s.setSP v).input = s.input := rfl
@[simp] theorem State.setSP_inPos : (s.setSP v).inPos = s.inPos := rfl
@[simp] theorem State.setSP_inputEnded : (s.setSP v).inputEnded = s.inputEnded := rfl
@[simp] theorem State.setSP_output : (s.setSP v).output = s.output := rfl
@[simp] theorem State.setSP_placement : (s.setSP v).placement = s.placement := rfl

@[simp] theorem State.advance_equal : (s.advance n).equal = s.equal := rfl
@[simp] theorem State.advance_mem : (s.advance n).mem = s.mem := rfl
@[simp] theorem State.advance_run : (s.advance n).run = s.run := rfl
@[simp] theorem State.advance_input : (s.advance n).input = s.input := rfl
@[simp] theorem State.advance_inPos : (s.advance n).inPos = s.inPos := rfl
@[simp] theorem State.advance_inputEnded : (s.advance n).inputEnded = s.inputEnded := rfl
@[simp] theorem State.advance_output : (s.advance n).output = s.output := rfl
@[simp] theorem State.advance_placement : (s.advance n).placement = s.placement := rfl

@[simp] theorem State.setEqual_regs : (s.setEqual b).regs = s.regs := rfl
@[simp] theorem State.setEqual_equal : (s.setEqual b).equal = b := rfl
@[simp] theorem State.setEqual_mem : (s.setEqual b).mem = s.mem := rfl
@[simp] theorem State.setEqual_run : (s.setEqual b).run = s.run := rfl
@[simp] theorem State.setEqual_input : (s.setEqual b).input = s.input := rfl
@[simp] theorem State.setEqual_inPos : (s.setEqual b).inPos = s.inPos := rfl
@[simp] theorem State.setEqual_inputEnded : (s.setEqual b).inputEnded = s.inputEnded := rfl
@[simp] theorem State.setEqual_output : (s.setEqual b).output = s.output := rfl
@[simp] theorem State.setEqual_placement : (s.setEqual b).placement = s.placement := rfl

@[simp] theorem State.halt_regs : s.halt.regs = s.regs := rfl
@[simp] theorem State.halt_equal : s.halt.equal = s.equal := rfl
@[simp] theorem State.halt_mem : s.halt.mem = s.mem := rfl
@[simp] theorem State.halt_run : s.halt.run = .halted := rfl
@[simp] theorem State.halt_input : s.halt.input = s.input := rfl
@[simp] theorem State.halt_inPos : s.halt.inPos = s.inPos := rfl
@[simp] theorem State.halt_inputEnded : s.halt.inputEnded = s.inputEnded := rfl
@[simp] theorem State.halt_output : s.halt.output = s.output := rfl
@[simp] theorem State.halt_placement : s.halt.placement = s.placement := rfl

@[simp] theorem State.consume_regs : (s.consume n).regs = s.regs := rfl
@[simp] theorem State.consume_equal : (s.consume n).equal = s.equal := rfl
@[simp] theorem State.consume_mem : (s.consume n).mem = s.mem := rfl
@[simp] theorem State.consume_run : (s.consume n).run = s.run := rfl
@[simp] theorem State.consume_input : (s.consume n).input = s.input := rfl
@[simp] theorem State.consume_inPos : (s.consume n).inPos = s.inPos + n := rfl
@[simp] theorem State.consume_inputEnded : (s.consume n).inputEnded = s.inputEnded := rfl
@[simp] theorem State.consume_output : (s.consume n).output = s.output := rfl
@[simp] theorem State.consume_placement : (s.consume n).placement = s.placement := rfl

@[simp] theorem State.afterFailedRead_regs : (s.afterFailedRead n).regs = s.regs := rfl
@[simp] theorem State.afterFailedRead_equal : (s.afterFailedRead n).equal = s.equal := rfl
@[simp] theorem State.afterFailedRead_mem : (s.afterFailedRead n).mem = s.mem := rfl
@[simp] theorem State.afterFailedRead_run : (s.afterFailedRead n).run = s.run := rfl
@[simp] theorem State.afterFailedRead_input : (s.afterFailedRead n).input = s.input := rfl
@[simp] theorem State.afterFailedRead_inputEnded : (s.afterFailedRead n).inputEnded = s.inputEnded := rfl
@[simp] theorem State.afterFailedRead_output : (s.afterFailedRead n).output = s.output := rfl
@[simp] theorem State.afterFailedRead_placement : (s.afterFailedRead n).placement = s.placement := rfl

@[simp] theorem State.put_regs : (s.put v).regs = s.regs := rfl
@[simp] theorem State.put_equal : (s.put v).equal = s.equal := rfl
@[simp] theorem State.put_mem : (s.put v).mem = s.mem := rfl
@[simp] theorem State.put_run : (s.put v).run = s.run := rfl
@[simp] theorem State.put_input : (s.put v).input = s.input := rfl
@[simp] theorem State.put_inPos : (s.put v).inPos = s.inPos := rfl
@[simp] theorem State.put_inputEnded : (s.put v).inputEnded = s.inputEnded := rfl
@[simp] theorem State.put_output : (s.put v).output = s.output ++ [v] := rfl
@[simp] theorem State.put_placement : (s.put v).placement = s.placement := rfl

@[simp] theorem State.setMem_regs : (s.setMem m).regs = s.regs := rfl
@[simp] theorem State.setMem_equal : (s.setMem m).equal = s.equal := rfl
@[simp] theorem State.setMem_mem : (s.setMem m).mem = m := rfl
@[simp] theorem State.setMem_run : (s.setMem m).run = s.run := rfl
@[simp] theorem State.setMem_input : (s.setMem m).input = s.input := rfl
@[simp] theorem State.setMem_inPos : (s.setMem m).inPos = s.inPos := rfl
@[simp] theorem State.setMem_inputEnded : (s.setMem m).inputEnded = s.inputEnded := rfl
@[simp] theorem State.setMem_output : (s.setMem m).output = s.output := rfl
@[simp] theorem State.setMem_placement : (s.setMem m).placement = s.placement := rfl

@[simp] theorem State.faultedBy_regs : (s.faultedBy c).regs = s.regs := rfl
@[simp] theorem State.faultedBy_equal : (s.faultedBy c).equal = s.equal := rfl
@[simp] theorem State.faultedBy_mem : (s.faultedBy c).mem = s.mem := rfl
@[simp] theorem State.faultedBy_run : (s.faultedBy c).run = .faulted c := rfl
@[simp] theorem State.faultedBy_input : (s.faultedBy c).input = s.input := rfl
@[simp] theorem State.faultedBy_inPos : (s.faultedBy c).inPos = s.inPos := rfl
@[simp] theorem State.faultedBy_inputEnded : (s.faultedBy c).inputEnded = s.inputEnded := rfl
@[simp] theorem State.faultedBy_output : (s.faultedBy c).output = s.output := rfl
@[simp] theorem State.faultedBy_placement : (s.faultedBy c).placement = s.placement := rfl

end Fields

/-- A register read depends on the register file alone. -/
theorem State.reg_congr {s t : State} (h : t.regs = s.regs) (j : Fin 16) : t.reg j = s.reg j := by
  simp only [State.reg, h]

/-- A write to one cell changes that cell and no other (10_state.md R21). -/
@[simp] theorem State.reg_setReg (s : State) (i j : Fin 16) (v : Byte) :
    (s.setReg i v).reg j = if j = i then v else s.reg j := by
  simp only [State.reg, State.setReg, Fin.getElem_fin, Vector.getElem_set, Fin.ext_iff, eq_comm (a := i.val)]

@[simp] theorem State.reg_setPC (s : State) (j : Fin 16) (v : Byte) :
    (s.setPC v).reg j = if j = idxPC then v else s.reg j :=
  State.reg_setReg s idxPC j v

@[simp] theorem State.reg_setSP (s : State) (j : Fin 16) (v : Byte) :
    (s.setSP v).reg j = if j = idxSP then v else s.reg j :=
  State.reg_setReg s idxSP j v

@[simp] theorem State.reg_advance (s : State) (n : Nat) (j : Fin 16) :
    (s.advance n).reg j = if j = idxPC then s.pc + BitVec.ofNat 8 n else s.reg j :=
  State.reg_setReg s idxPC j _

@[simp] theorem State.reg_setEqual (s : State) (b : Bool) (j : Fin 16) : (s.setEqual b).reg j = s.reg j := rfl
@[simp] theorem State.reg_halt (s : State) (j : Fin 16) : s.halt.reg j = s.reg j := rfl
@[simp] theorem State.reg_consume (s : State) (n : Nat) (j : Fin 16) : (s.consume n).reg j = s.reg j := rfl
@[simp] theorem State.reg_setMem (s : State) (m : Memory) (j : Fin 16) : (s.setMem m).reg j = s.reg j := rfl
@[simp] theorem State.reg_faultedBy (s : State) (c : Cause) (j : Fin 16) : (s.faultedBy c).reg j = s.reg j := rfl
@[simp] theorem State.reg_afterFailedRead (s : State) (n : Nat) (j : Fin 16) :
    (s.afterFailedRead n).reg j = s.reg j := rfl
@[simp] theorem State.reg_put (s : State) (v : Byte) (j : Fin 16) : (s.put v).reg j = s.reg j := rfl

/-- `PC` and `SP` are different cells. -/
@[simp] theorem idxSP_ne_idxPC : idxSP ≠ idxPC := by decide

@[simp] theorem State.pc_advance (s : State) (n : Nat) : (s.advance n).pc = s.pc + BitVec.ofNat 8 n := by
  simp [State.pc]

@[simp] theorem State.sp_advance (s : State) (n : Nat) : (s.advance n).sp = s.sp := by
  simp [State.sp]

@[simp] theorem State.pc_setPC (s : State) (v : Byte) : (s.setPC v).pc = v := by
  simp [State.pc]

@[simp] theorem State.sp_setSP (s : State) (v : Byte) : (s.setSP v).sp = v := by
  simp [State.sp]

@[simp] theorem State.pc_halt (s : State) : s.halt.pc = s.pc := rfl
@[simp] theorem State.pc_setMem (s : State) (m : Memory) : (s.setMem m).pc = s.pc := rfl
@[simp] theorem State.sp_setMem (s : State) (m : Memory) : (s.setMem m).sp = s.sp := rfl
@[simp] theorem State.pc_faultedBy (s : State) (c : Cause) : (s.faultedBy c).pc = s.pc := rfl
@[simp] theorem State.pc_consume (s : State) (n : Nat) : (s.consume n).pc = s.pc := rfl
@[simp] theorem State.pc_put (s : State) (v : Byte) : (s.put v).pc = s.pc := rfl
@[simp] theorem State.pc_setEqual (s : State) (b : Bool) : (s.setEqual b).pc = s.pc := rfl

@[simp] theorem State.pc_setSP (s : State) (v : Byte) : (s.setSP v).pc = s.pc := by
  simp [State.pc, idxSP_ne_idxPC.symm]

@[simp] theorem State.sp_setPC (s : State) (v : Byte) : (s.setPC v).sp = s.sp := by
  simp [State.sp]

@[simp] theorem State.sp_consume (s : State) (n : Nat) : (s.consume n).sp = s.sp := rfl

end Sys2Proof.Machine
end

