-- ==== Sys2Proof/Laws/Ops.lean ====
section
/-! SUPPORT. One lemma for each shared operation that says once everything it can do. -/

namespace Sys2Proof.Machine

/-! ### Register operands -/

theorem cell_of_lt {r : RegIndex} (h : r.toNat < 16) : cell r = .ok ⟨r.toNat, h⟩ := by
  simp only [cell, dif_pos h]

theorem cell_of_ge {r : RegIndex} (h : 16 ≤ r.toNat) : cell r = .error .registerIndexOutOfRange := by
  simp only [cell, dif_neg (by omega : ¬ r.toNat < 16)]

/-- A register operand resolves to its own number, or raises the one cause. -/
theorem cell_cases (r : RegIndex) :
    (∃ h : r.toNat < 16, cell r = .ok ⟨r.toNat, h⟩) ∨ (16 ≤ r.toNat ∧ cell r = .error .registerIndexOutOfRange) := by
  by_cases h : r.toNat < 16
  · exact .inl ⟨h, cell_of_lt h⟩
  · exact .inr ⟨by omega, cell_of_ge (by omega)⟩

/-! ### Addresses -/

theorem regAddr_lt (v : Byte) : regAddr v < Config.instrEnd := v.isLt

/-- The composite address as a number (20_memory.md R59). -/
theorem composite_toNat (high low : Byte) : (composite high low).toNat = high.toNat * 256 + low.toNat := by
  have hl := low.isLt
  rw [composite, BitVec.toNat_append, Nat.shiftLeft_eq]
  have : high.toNat * 2 ^ 8 ||| low.toNat = high.toNat * 2 ^ 8 + low.toNat := by
    rw [← Nat.shiftLeft_eq, Nat.shiftLeft_add_eq_or_of_lt hl]
  omega

theorem stackAddr_lt (off : Byte) : stackAddr off < Config.asSize := by
  have := off.isLt
  simp only [stackAddr, Config.stackBase, Config.asSize]
  omega

/-! ### Memory primitives -/

theorem State.memRead_of_lt {s : State} {a : Nat} (h : a < Config.asSize) : s.memRead a = .ok (s.mem.read a) :=
  if_pos h

theorem State.memRead_of_ge {s : State} {a : Nat} (h : Config.asSize ≤ a) : s.memRead a = .error .addressOutOfRange :=
  if_neg (by omega)

theorem State.memWrite_of_lt {s : State} {a : Nat} (v : Byte) (h : a < Config.asSize) :
    s.memWrite a v = .ok (s.setMem (s.mem.write a v)) :=
  if_pos h

/-- Writes inside the address space all happen. -/
theorem State.memWrites_of_le {s : State} {a : Nat} {vs : List Byte} (h : a + vs.length ≤ Config.asSize) :
    s.memWrites a vs = .ok (s.setMem (s.mem.writeList a vs)) := by
  induction vs generalizing s a with
  | nil => rfl
  | cons v vs ih =>
    simp only [List.length_cons] at h
    simp only [State.memWrites, State.memWrite_of_lt v (by omega : a < Config.asSize), Except.bind, bind]
    exact ih (by omega)

/-! ### Taking a fatal condition, and running an execute rule -/

/-- Everything a fatal condition does: the run state changes and nothing else (60_exceptions.md R252). -/
theorem takeFatal_next {c : Cause} {s t : State} (h : takeFatal c s = .next t) : t = s.faultedBy c := by
  simpa [takeFatal, eq_comm] using h

/-- An instruction either completes its rule on the advanced state, or takes the fatal condition its rule raises, from the
state before the advance. -/
theorem execute_cases {i : Instr} {s t : State} {rule : State → Except Cause State} (h : execute i s rule = .next t) :
    rule (s.advance i.len) = .ok t ∨
      ∃ c, rule (s.advance i.len) = .error c ∧ t = s.faultedBy c := by
  unfold execute at h
  split at h
  · cases h
    exact .inl ‹_›
  · exact .inr ⟨_, ‹_›, takeFatal_next h⟩

theorem execute_ok {i : Instr} {s t : State} {rule : State → Except Cause State}
    (h : rule (s.advance i.len) = .ok t) : execute i s rule = .next t := by
  simp only [execute, h]

theorem execute_error {i : Instr} {s : State} {c : Cause} {rule : State → Except Cause State}
    (h : rule (s.advance i.len) = .error c) : execute i s rule = .next (s.faultedBy c) := by
  simp only [execute, h, takeFatal]

/-- An instruction always answers a next state. -/
theorem execute_next (i : Instr) (s : State) (rule : State → Except Cause State) :
    ∃ t, execute i s rule = .next t := by
  cases h : rule (s.advance i.len) with
  | ok t => exact ⟨t, execute_ok h⟩
  | error c => exact ⟨_, execute_error h⟩

/-- What an instruction reads as a register operand, in the words of the claims. -/
theorem State.reg_advance_eq (s : State) (n : Nat) (j : Fin 16) : (s.advance n).reg j = s.operandValue n j :=
  State.reg_advance s n j

/-! ### Channels -/

/-- The three answers of the input source, each with what it says of the input. -/
theorem State.request_cases (s : State) (n : Nat) :
    (n ≤ s.available.length ∧ s.request n = .bytes (s.available.take n)) ∨
      (s.available.length < n ∧ s.inputEnded = true ∧ s.request n = .exhausted) ∨
      (s.available.length < n ∧ s.inputEnded = false ∧ s.request n = .pending) := by
  unfold State.request
  by_cases h : n ≤ s.available.length
  · exact .inl ⟨h, if_pos h⟩
  · cases he : s.inputEnded
    · exact .inr (.inr ⟨by omega, rfl, by simp [h]⟩)
    · exact .inr (.inl ⟨by omega, rfl, by simp [h]⟩)

theorem State.request_of_le {s : State} {n : Nat} (h : n ≤ s.available.length) :
    s.request n = .bytes (s.available.take n) :=
  if_pos h

theorem State.length_available (s : State) : s.available.length = s.input.length - s.inPos := by
  simp [State.available]

/-- A failed read moves the input position no further than its request could. -/
theorem State.afterFailedRead_inPos_le (s : State) (n : Nat) :
    s.inPos ≤ (s.afterFailedRead n).inPos ∧
      (s.afterFailedRead n).inPos ≤ s.inPos + min n (s.input.length - s.inPos) := by
  simp only [State.afterFailedRead, State.consume_inPos, State.length_available]
  omega

/-- The push of a read that fits: the bytes written at the placement's base in reverse, `SP` raised, nothing else. -/
theorem State.pushRead_of_fits {s : State} {count : Byte} {b : List Byte} (hb : b.length = count.toNat)
    (h : s.sp.toNat + count.toNat ≤ Config.stackSize) :
    s.pushRead count b =
      .ok ((s.setMem (s.mem.writeList (stackAddr s.readBase) b.reverse)).setSP (s.sp + count)) := by
  have hbase : stackAddr s.readBase + b.reverse.length ≤ Config.asSize := by
    have h1 := count.isLt
    simp only [State.readBase, stackAddr, Config.stackBase, Config.asSize, Config.stackSize, List.length_reverse, hb] at *
    split
    · omega
    · have : (0x00 : Byte).toNat = 0 := rfl
      omega
  simp only [State.pushRead, State.memWrites_of_le hbase, bind, Except.bind]

end Sys2Proof.Machine
end

