-- ==== Sys2Proof/Laws/Exec.lean ====
section
/-! SUPPORT. One lemma for each execute rule that says everything it can do (the forms a claim's proof starts from), and
the inversion of `step`. -/

namespace Sys2Proof.Machine

variable {s t : State}

theorem exec_exit : exec .exit s = .next (s.advance 1).halt := rfl

theorem exec_jumpIfNotEqual (target : Byte) :
    exec (.jumpIfNotEqual target) s =
      .next (if s.equal then s.advance 2 else (s.advance 2).setPC target) := rfl

theorem exec_writeStdoutConst8 (byte : Byte) :
    exec (.writeStdoutConst8 byte) s = .next ((s.advance 2).put byte) := rfl

theorem exec_movReg8Const8 {r : RegIndex} (h : r.toNat < 16) (v : Byte) :
    exec (.movReg8Const8 r v) s = .next ((s.advance 3).setReg ⟨r.toNat, h⟩ v) := by
  simp only [exec, execMovReg8Const8, execute, cell_of_lt h, bind, Except.bind, Instr.len]

theorem exec_subReg8Const8 {r : RegIndex} (h : r.toNat < 16) (v : Byte) :
    exec (.subReg8Const8 r v) s =
      .next ((s.advance 3).setReg ⟨r.toNat, h⟩ (s.operandValue 3 ⟨r.toNat, h⟩ - v)) := by
  simp only [exec, execSubReg8Const8, execute, cell_of_lt h, bind, Except.bind, Instr.len, State.reg_advance_eq]

theorem exec_addReg8Const8 {r : RegIndex} (h : r.toNat < 16) (v : Byte) :
    exec (.addReg8Const8 r v) s =
      .next ((s.advance 3).setReg ⟨r.toNat, h⟩ (s.operandValue 3 ⟨r.toNat, h⟩ + v)) := by
  simp only [exec, execAddReg8Const8, execute, cell_of_lt h, bind, Except.bind, Instr.len, State.reg_advance_eq]

theorem exec_xorReg8Const8 {r : RegIndex} (h : r.toNat < 16) (v : Byte) :
    exec (.xorReg8Const8 r v) s =
      .next ((s.advance 3).setReg ⟨r.toNat, h⟩ (s.operandValue 3 ⟨r.toNat, h⟩ ^^^ v)) := by
  simp only [exec, execXorReg8Const8, execute, cell_of_lt h, bind, Except.bind, Instr.len, State.reg_advance_eq]

theorem exec_xorReg8Reg8 {d r : RegIndex} (hd : d.toNat < 16) (hr : r.toNat < 16) :
    exec (.xorReg8Reg8 d r) s =
      .next ((s.advance 3).setReg ⟨d.toNat, hd⟩
        (s.operandValue 3 ⟨d.toNat, hd⟩ ^^^ s.operandValue 3 ⟨r.toNat, hr⟩)) := by
  simp only [exec, execXorReg8Reg8, execute, cell_of_lt hd, cell_of_lt hr, bind, Except.bind, Instr.len, State.reg_advance_eq]

theorem exec_cmpReg8Const8 {r : RegIndex} (h : r.toNat < 16) (v : Byte) :
    exec (.cmpReg8Const8 r v) s =
      .next ((s.advance 3).setEqual (s.operandValue 3 ⟨r.toNat, h⟩ == v)) := by
  simp only [exec, execCmpReg8Const8, execute, cell_of_lt h, equalOf, bind, Except.bind, Instr.len, State.reg_advance_eq]

theorem exec_cmpReg8Reg8 {a b : RegIndex} (ha : a.toNat < 16) (hb : b.toNat < 16) :
    exec (.cmpReg8Reg8 a b) s =
      .next ((s.advance 3).setEqual (s.operandValue 3 ⟨a.toNat, ha⟩ == s.operandValue 3 ⟨b.toNat, hb⟩)) := by
  simp only [exec, execCmpReg8Reg8, execute, cell_of_lt ha, cell_of_lt hb, equalOf, bind, Except.bind, Instr.len, State.reg_advance_eq]

theorem exec_xorMemReg8Const8 {r : RegIndex} (h : r.toNat < 16) (v : Byte) :
    exec (.xorMemReg8Const8 r v) s =
      .next ((s.advance 3).setMem (s.mem.write (regAddr (s.operandValue 3 ⟨r.toNat, h⟩))
        (s.mem.read (regAddr (s.operandValue 3 ⟨r.toNat, h⟩)) ^^^ v))) := by
  have hlt : regAddr (s.operandValue 3 ⟨r.toNat, h⟩) < Config.asSize :=
    lt_trans (regAddr_lt _) (by decide)
  simp only [exec, execXorMemReg8Const8, execute, cell_of_lt h, bind, Except.bind, Instr.len, State.reg_advance_eq,
    State.memRead_of_lt hlt, State.memWrite_of_lt _ hlt, State.advance_mem]

/-- The operands of a load, resolved. -/
theorem exec_derefAddressReg16Reg8 {h l d : RegIndex} (hh : h.toNat < 16) (hl : l.toNat < 16) (hd : d.toNat < 16) :
    exec (.derefAddressReg16Reg8 h l d) s =
      (let ea := (composite (s.operandValue 4 ⟨h.toNat, hh⟩) (s.operandValue 4 ⟨l.toNat, hl⟩)).toNat
      if ea < Config.asSize then .next ((s.advance 4).setReg ⟨d.toNat, hd⟩ (s.mem.read ea))
      else .next (s.faultedBy .addressOutOfRange)) := by
  generalize hea : (composite (s.operandValue 4 ⟨h.toNat, hh⟩) (s.operandValue 4 ⟨l.toNat, hl⟩)).toNat = ea
  simp only [exec, execDerefAddressReg16Reg8, execute, cell_of_lt hh, cell_of_lt hl, cell_of_lt hd, bind, Except.bind,
    Instr.len, State.reg_advance_eq, hea]
  by_cases hlt : ea < Config.asSize
  · simp only [State.memRead_of_lt hlt, if_pos hlt, State.advance_mem]
  · simp only [State.memRead_of_ge (Nat.le_of_not_lt hlt), if_neg hlt, takeFatal]

/-- The operand of a pop, resolved. -/
theorem exec_popReg8 {r : RegIndex} (h : r.toNat < 16) :
    exec (.popReg8 r) s =
      if s.sp = 0 then .next (s.faultedBy .stackEmpty)
      else .next (((s.advance 2).setSP (s.sp - 1)).setReg ⟨r.toNat, h⟩ (s.mem.read (stackAddr (s.sp - 1)))) := by
  have hread : State.memRead ((s.advance 2).setSP (s.sp - 1)) (stackAddr (s.sp - 1)) =
      .ok (s.mem.read (stackAddr (s.sp - 1))) := State.memRead_of_lt (stackAddr_lt _)
  simp only [exec, execPopReg8, execute, cell_of_lt h, bind, Except.bind, State.sp_advance, Instr.len]
  by_cases h0 : s.sp = 0
  · simp only [if_pos h0, takeFatal]
  · simp only [if_neg h0, State.sp_setSP, hread]

/-- A read of no bytes. -/
theorem exec_readStdinStack_zero : exec (.readStdinStack 0) s = .next (s.advance 2) := rfl

/-- A read that completes. -/
theorem exec_readStdinStack_ok {count : Byte} (h0 : count ≠ 0) (ha : count.toNat ≤ s.available.length)
    (hf : s.sp.toNat + count.toNat ≤ Config.stackSize) :
    exec (.readStdinStack count) s =
      .next ((((s.advance 2).consume count.toNat).setMem
        (s.mem.writeList (stackAddr s.readBase) (s.available.take count.toNat).reverse)).setSP (s.sp + count)) := by
  have hb : (s.available.take count.toNat).length = count.toNat := by simp [ha]
  have hbase : ((s.advance 2).consume count.toNat).readBase = s.readBase := by
    simp [State.readBase]
  show execReadStdinStack count s = _
  rw [execReadStdinStack, if_neg h0, State.request_of_le ha]
  dsimp only
  rw [if_neg (by omega)]
  rw [execute,
    show Instr.len (.readStdinStack count) = 2 from rfl,
    State.pushRead_of_fits hb (by simpa using hf), hbase]
  simp

/-- A read that does not complete waits, or takes one of its two fatal conditions. -/
theorem exec_readStdinStack_not_ok {count : Byte} (h0 : count ≠ 0)
    (h : s.available.length < count.toNat ∨ Config.stackSize < s.sp.toNat + count.toNat) :
    exec (.readStdinStack count) s =
      if s.available.length < count.toNat then
        if s.inputEnded then .next ((s.afterFailedRead count.toNat).faultedBy .inputExhausted) else .next s
      else .next ((s.afterFailedRead count.toNat).faultedBy .stackOverflow) := by
  show execReadStdinStack count s = _
  rw [execReadStdinStack, if_neg h0]
  obtain ⟨ha, hr⟩ | ⟨ha, he, hr⟩ | ⟨ha, he, hr⟩ := s.request_cases count.toNat
  · rw [hr, if_neg (by omega)]
    dsimp only
    rw [if_pos (by omega)]
    rfl
  · rw [hr, if_pos ha, he]
    rfl
  · rw [hr, if_pos ha, he]
    rfl

/-- A register operand above 15 is the fatal condition of every instruction that has one (10_state.md R24). -/
theorem exec_of_not_wellFormed {i : Instr} (h : ¬ i.WellFormed) :
    exec i s = .next (s.faultedBy .registerIndexOutOfRange) := by
  simp only [Instr.WellFormed, not_forall] at h
  obtain ⟨r, hr, hge⟩ := h
  have hge : 16 ≤ r.toNat := by omega
  cases i with
  | exit => simp [Instr.regOperands] at hr
  | movReg8Const8 reg value => obtain rfl := List.mem_singleton.1 hr; simp only [exec, execMovReg8Const8, execute, cell_of_ge hge]; rfl
  | xorMemReg8Const8 reg value => obtain rfl := List.mem_singleton.1 hr; simp only [exec, execXorMemReg8Const8, execute, cell_of_ge hge]; rfl
  | cmpReg8Const8 reg value => obtain rfl := List.mem_singleton.1 hr; simp only [exec, execCmpReg8Const8, execute, cell_of_ge hge]; rfl
  | cmpReg8Reg8 a b =>
    simp only [exec, execCmpReg8Reg8, execute]
    obtain ⟨_, hx⟩ | ⟨_, hx⟩ := cell_cases a
    · obtain rfl | rfl : r = a ∨ r = b := by simpa [Instr.regOperands] using hr
      · omega
      · simp only [hx, cell_of_ge hge]; rfl
    · simp only [hx]; rfl
  | jumpIfNotEqual target => simp [Instr.regOperands] at hr
  | subReg8Const8 reg value => obtain rfl := List.mem_singleton.1 hr; simp only [exec, execSubReg8Const8, execute, cell_of_ge hge]; rfl
  | addReg8Const8 reg value => obtain rfl := List.mem_singleton.1 hr; simp only [exec, execAddReg8Const8, execute, cell_of_ge hge]; rfl
  | xorReg8Const8 reg value => obtain rfl := List.mem_singleton.1 hr; simp only [exec, execXorReg8Const8, execute, cell_of_ge hge]; rfl
  | xorReg8Reg8 a b =>
    simp only [exec, execXorReg8Reg8, execute]
    obtain ⟨_, hx⟩ | ⟨_, hx⟩ := cell_cases a
    · obtain rfl | rfl : r = a ∨ r = b := by simpa [Instr.regOperands] using hr
      · omega
      · simp only [hx, cell_of_ge hge]; rfl
    · simp only [hx]; rfl
  | readStdinStack count => simp [Instr.regOperands] at hr
  | popReg8 reg => obtain rfl := List.mem_singleton.1 hr; simp only [exec, execPopReg8, execute, cell_of_ge hge]; rfl
  | derefAddressReg16Reg8 a b c =>
    simp only [exec, execDerefAddressReg16Reg8, execute]
    obtain ⟨_, ha⟩ | ⟨_, ha⟩ := cell_cases a
    · obtain ⟨_, hb⟩ | ⟨_, hb⟩ := cell_cases b
      · obtain rfl | rfl | rfl : r = a ∨ r = b ∨ r = c := by simpa [Instr.regOperands] using hr
        · omega
        · omega
        · simp only [ha, hb, cell_of_ge hge]; rfl
      · simp only [ha, hb]; rfl
    · simp only [ha]; rfl
  | writeStdoutConst8 byte => simp [Instr.regOperands] at hr

end Sys2Proof.Machine
end

