-- ==== Sys2Proof/Laws/PerInstr.lean ====
section
/-! SUPPORT. The families of LAWS.json: a law of every instruction as syntax, one lemma a constructor. -/

namespace Sys2Proof.Laws.EncodedLength

/-- "`encode` emits exactly `len()` bytes" (30_encoding.md R90). -/
def Statement (i : Instr) : Prop :=
  (encode i).length = i.len

theorem exit : Statement .exit := rfl
theorem movReg8Const8 (reg : RegIndex) (value : Byte) : Statement (.movReg8Const8 reg value) := rfl
theorem xorMemReg8Const8 (reg : RegIndex) (value : Byte) : Statement (.xorMemReg8Const8 reg value) := rfl
theorem cmpReg8Const8 (reg : RegIndex) (value : Byte) : Statement (.cmpReg8Const8 reg value) := rfl
theorem cmpReg8Reg8 (regA regB : RegIndex) : Statement (.cmpReg8Reg8 regA regB) := rfl
theorem jumpIfNotEqual (target : Byte) : Statement (.jumpIfNotEqual target) := rfl
theorem subReg8Const8 (reg : RegIndex) (value : Byte) : Statement (.subReg8Const8 reg value) := rfl
theorem addReg8Const8 (reg : RegIndex) (value : Byte) : Statement (.addReg8Const8 reg value) := rfl
theorem xorReg8Const8 (reg : RegIndex) (value : Byte) : Statement (.xorReg8Const8 reg value) := rfl
theorem xorReg8Reg8 (dest src : RegIndex) : Statement (.xorReg8Reg8 dest src) := rfl
theorem readStdinStack (count : Byte) : Statement (.readStdinStack count) := rfl
theorem popReg8 (reg : RegIndex) : Statement (.popReg8 reg) := rfl
theorem derefAddressReg16Reg8 (addrHigh addrLow dest : RegIndex) :
    Statement (.derefAddressReg16Reg8 addrHigh addrLow dest) := rfl
theorem writeStdoutConst8 (byte : Byte) : Statement (.writeStdoutConst8 byte) := rfl

end Sys2Proof.Laws.EncodedLength
end

