-- ==== Sys2Proof/Laws/Step.lean ====
section
/-! SUPPORT. What one instruction can do, as one closed list of cases, and the inversion of `step`. -/

namespace Sys2Proof.Machine

/-- Every way an instruction at `s` can end, with the state it leaves: it completes (one case an instruction), it takes a
fatal condition, or it waits for input. -/
inductive Effect (s : State) : Instr → State → Prop where
  | exit : Effect s .exit (s.advance 1).halt
  | stay (target : Byte) (h : s.equal = true) : Effect s (.jumpIfNotEqual target) (s.advance 2)
  | jump (target : Byte) (h : s.equal = false) : Effect s (.jumpIfNotEqual target) ((s.advance 2).setPC target)
  | mov (r : RegIndex) (v : Byte) (h : r.toNat < 16) :
      Effect s (.movReg8Const8 r v) ((s.advance 3).setReg ⟨r.toNat, h⟩ v)
  | sub (r : RegIndex) (v : Byte) (h : r.toNat < 16) :
      Effect s (.subReg8Const8 r v) ((s.advance 3).setReg ⟨r.toNat, h⟩ (s.operandValue 3 ⟨r.toNat, h⟩ - v))
  | add (r : RegIndex) (v : Byte) (h : r.toNat < 16) :
      Effect s (.addReg8Const8 r v) ((s.advance 3).setReg ⟨r.toNat, h⟩ (s.operandValue 3 ⟨r.toNat, h⟩ + v))
  | xorConst (r : RegIndex) (v : Byte) (h : r.toNat < 16) :
      Effect s (.xorReg8Const8 r v) ((s.advance 3).setReg ⟨r.toNat, h⟩ (s.operandValue 3 ⟨r.toNat, h⟩ ^^^ v))
  | xorReg (d r : RegIndex) (hd : d.toNat < 16) (hr : r.toNat < 16) :
      Effect s (.xorReg8Reg8 d r) ((s.advance 3).setReg ⟨d.toNat, hd⟩
        (s.operandValue 3 ⟨d.toNat, hd⟩ ^^^ s.operandValue 3 ⟨r.toNat, hr⟩))
  | cmpConst (r : RegIndex) (v : Byte) (h : r.toNat < 16) :
      Effect s (.cmpReg8Const8 r v) ((s.advance 3).setEqual (s.operandValue 3 ⟨r.toNat, h⟩ == v))
  | cmpReg (a b : RegIndex) (ha : a.toNat < 16) (hb : b.toNat < 16) :
      Effect s (.cmpReg8Reg8 a b)
        ((s.advance 3).setEqual (s.operandValue 3 ⟨a.toNat, ha⟩ == s.operandValue 3 ⟨b.toNat, hb⟩))
  | xorMem (r : RegIndex) (v : Byte) (h : r.toNat < 16) :
      Effect s (.xorMemReg8Const8 r v) ((s.advance 3).setMem (s.mem.write (regAddr (s.operandValue 3 ⟨r.toNat, h⟩))
        (s.mem.read (regAddr (s.operandValue 3 ⟨r.toNat, h⟩)) ^^^ v)))
  | deref (h l d : RegIndex) (hh : h.toNat < 16) (hl : l.toNat < 16) (hd : d.toNat < 16)
      (hea : (composite (s.operandValue 4 ⟨h.toNat, hh⟩) (s.operandValue 4 ⟨l.toNat, hl⟩)).toNat < Config.asSize) :
      Effect s (.derefAddressReg16Reg8 h l d) ((s.advance 4).setReg ⟨d.toNat, hd⟩
        (s.mem.read (composite (s.operandValue 4 ⟨h.toNat, hh⟩) (s.operandValue 4 ⟨l.toNat, hl⟩)).toNat))
  | pop (r : RegIndex) (h : r.toNat < 16) (h0 : s.sp ≠ 0) :
      Effect s (.popReg8 r)
        (((s.advance 2).setSP (s.sp - 1)).setReg ⟨r.toNat, h⟩ (s.mem.read (stackAddr (s.sp - 1))))
  | write (byte : Byte) : Effect s (.writeStdoutConst8 byte) ((s.advance 2).put byte)
  | readNone : Effect s (.readStdinStack 0) (s.advance 2)
  | read (count : Byte) (h0 : count ≠ 0) (ha : count.toNat ≤ s.available.length)
      (hf : s.sp.toNat + count.toNat ≤ Config.stackSize) :
      Effect s (.readStdinStack count) ((((s.advance 2).consume count.toNat).setMem
        (s.mem.writeList (stackAddr s.readBase) (s.available.take count.toNat).reverse)).setSP (s.sp + count))
  | wait (count : Byte) (h0 : count ≠ 0) (ha : s.available.length < count.toNat) (he : s.inputEnded = false) :
      Effect s (.readStdinStack count) s
  | inputExhausted (count : Byte) (h0 : count ≠ 0) (ha : s.available.length < count.toNat)
      (he : s.inputEnded = true) :
      Effect s (.readStdinStack count) ((s.afterFailedRead count.toNat).faultedBy .inputExhausted)
  | stackOverflow (count : Byte) (h0 : count ≠ 0) (ha : count.toNat ≤ s.available.length)
      (hf : Config.stackSize < s.sp.toNat + count.toNat) :
      Effect s (.readStdinStack count) ((s.afterFailedRead count.toNat).faultedBy .stackOverflow)
  | stackEmpty (r : RegIndex) (h : r.toNat < 16) (h0 : s.sp = 0) : Effect s (.popReg8 r) (s.faultedBy .stackEmpty)
  | addressOutOfRange (h l d : RegIndex) (hh : h.toNat < 16) (hl : l.toNat < 16) (hd : d.toNat < 16)
      (hea : Config.asSize ≤
        (composite (s.operandValue 4 ⟨h.toNat, hh⟩) (s.operandValue 4 ⟨l.toNat, hl⟩)).toNat) :
      Effect s (.derefAddressReg16Reg8 h l d) (s.faultedBy .addressOutOfRange)
  | registerIndexOutOfRange (i : Instr) (h : ¬ i.WellFormed) : Effect s i (s.faultedBy .registerIndexOutOfRange)

/-- Every instruction has one of the listed effects. -/
theorem exec_effect (i : Instr) (s : State) : ∃ t, exec i s = .next t ∧ Effect s i t := by
  by_cases hw : i.WellFormed
  case neg => exact ⟨_, exec_of_not_wellFormed hw, .registerIndexOutOfRange i hw⟩
  case pos =>
  simp only [Instr.WellFormed] at hw
  cases i with
  | exit => exact ⟨_, exec_exit, .exit⟩
  | movReg8Const8 r v => exact ⟨_, exec_movReg8Const8 (hw r (by simp [Instr.regOperands])) v, .mov r v _⟩
  | xorMemReg8Const8 r v => exact ⟨_, exec_xorMemReg8Const8 (hw r (by simp [Instr.regOperands])) v, .xorMem r v _⟩
  | cmpReg8Const8 r v => exact ⟨_, exec_cmpReg8Const8 (hw r (by simp [Instr.regOperands])) v, .cmpConst r v _⟩
  | cmpReg8Reg8 a b =>
    exact ⟨_, exec_cmpReg8Reg8 (hw a (by simp [Instr.regOperands])) (hw b (by simp [Instr.regOperands])),
      .cmpReg a b _ _⟩
  | jumpIfNotEqual target =>
    cases he : s.equal with
    | true => exact ⟨_, by rw [exec_jumpIfNotEqual, if_pos he], .stay target he⟩
    | false => exact ⟨_, by rw [exec_jumpIfNotEqual, if_neg (by simp [he])], .jump target he⟩
  | subReg8Const8 r v => exact ⟨_, exec_subReg8Const8 (hw r (by simp [Instr.regOperands])) v, .sub r v _⟩
  | addReg8Const8 r v => exact ⟨_, exec_addReg8Const8 (hw r (by simp [Instr.regOperands])) v, .add r v _⟩
  | xorReg8Const8 r v => exact ⟨_, exec_xorReg8Const8 (hw r (by simp [Instr.regOperands])) v, .xorConst r v _⟩
  | xorReg8Reg8 d r =>
    exact ⟨_, exec_xorReg8Reg8 (hw d (by simp [Instr.regOperands])) (hw r (by simp [Instr.regOperands])),
      .xorReg d r _ _⟩
  | readStdinStack count =>
    by_cases h0 : count = 0
    · subst h0
      exact ⟨_, exec_readStdinStack_zero, .readNone⟩
    by_cases ha : s.available.length < count.toNat
    · have h := exec_readStdinStack_not_ok (s := s) h0 (.inl ha)
      rw [if_pos ha] at h
      cases he : s.inputEnded with
      | true => exact ⟨_, by rw [h, if_pos he], .inputExhausted count h0 ha he⟩
      | false => exact ⟨_, by rw [h, if_neg (by simp [he])], .wait count h0 ha he⟩
    · by_cases hf : Config.stackSize < s.sp.toNat + count.toNat
      · have h := exec_readStdinStack_not_ok (s := s) h0 (.inr hf)
        rw [if_neg ha] at h
        exact ⟨_, h, .stackOverflow count h0 (by omega) hf⟩
      · exact ⟨_, exec_readStdinStack_ok h0 (by omega) (by omega), .read count h0 (by omega) (by omega)⟩
  | popReg8 r =>
    have h := exec_popReg8 (s := s) (hw r (by simp [Instr.regOperands]))
    by_cases h0 : s.sp = 0
    · exact ⟨_, by rw [h, if_pos h0], .stackEmpty r (hw r (by simp [Instr.regOperands])) h0⟩
    · exact ⟨_, by rw [h, if_neg h0], .pop r _ h0⟩
  | derefAddressReg16Reg8 a b c =>
    have ha := hw a (by simp [Instr.regOperands])
    have hb := hw b (by simp [Instr.regOperands])
    have hc := hw c (by simp [Instr.regOperands])
    have h := exec_derefAddressReg16Reg8 (s := s) ha hb hc
    by_cases hlt :
        (composite (s.operandValue 4 ⟨a.toNat, ha⟩) (s.operandValue 4 ⟨b.toNat, hb⟩)).toNat < Config.asSize
    · exact ⟨_, by rw [h]; exact if_pos hlt, .deref a b c ha hb hc hlt⟩
    · exact ⟨_, by rw [h]; exact if_neg hlt, .addressOutOfRange a b c ha hb hc (by omega)⟩
  | writeStdoutConst8 byte => exact ⟨_, exec_writeStdoutConst8 byte, .write byte⟩

/-- The inversion of `exec`: a next state is one of the listed effects. -/
theorem exec_cases {i : Instr} {s t : State} (h : exec i s = .next t) : Effect s i t := by
  obtain ⟨u, hu, he⟩ := exec_effect i s
  rw [hu] at h
  cases h
  exact he

/-- The converse of `exec_cases`: a listed effect is what the instruction does. -/
theorem exec_of_effect {s t : State} {i : Instr} (h : Effect s i t) : exec i s = .next t := by
  cases h with
  | exit => rfl
  | stay _ h => rw [exec_jumpIfNotEqual, if_pos h]
  | jump _ h => rw [exec_jumpIfNotEqual, if_neg (by simp [h])]
  | mov r v h => exact exec_movReg8Const8 h v
  | sub r v h => exact exec_subReg8Const8 h v
  | add r v h => exact exec_addReg8Const8 h v
  | xorConst r v h => exact exec_xorReg8Const8 h v
  | xorReg d r hd hr => exact exec_xorReg8Reg8 hd hr
  | cmpConst r v h => exact exec_cmpReg8Const8 h v
  | cmpReg a b ha hb => exact exec_cmpReg8Reg8 ha hb
  | xorMem r v h => exact exec_xorMemReg8Const8 h v
  | deref h l d hh hl hd hea => rw [exec_derefAddressReg16Reg8 hh hl hd]; exact if_pos hea
  | pop r h h0 => rw [exec_popReg8 h, if_neg h0]
  | write b => rfl
  | readNone => rfl
  | read c h0 ha hf => exact exec_readStdinStack_ok h0 ha hf
  | wait c h0 ha he => rw [exec_readStdinStack_not_ok h0 (.inl ha), if_pos ha, if_neg (by simp [he])]
  | inputExhausted c h0 ha he => rw [exec_readStdinStack_not_ok h0 (.inl ha), if_pos ha, if_pos he]
  | stackOverflow c h0 ha hf => rw [exec_readStdinStack_not_ok h0 (.inr hf), if_neg (by omega)]
  | stackEmpty r h h0 => rw [exec_popReg8 h, if_pos h0]
  | addressOutOfRange h l d hh hl hd hea => rw [exec_derefAddressReg16Reg8 hh hl hd]; exact if_neg (by omega)
  | registerIndexOutOfRange i h => exact exec_of_not_wellFormed h

/-- The inversion of `step`: the run was running, and the step was an instruction or a fatal condition of decode. -/
theorem step_cases {s t : State} (h : step s = .next t) :
    s.run = .running ∧
      ((∃ b, s.fetch = .unknownOpcode b ∧ t = s.faultedBy .unknownOpcode) ∨
        (s.fetch = .exhausted ∧ t = s.faultedBy .decodeExhausted) ∨
        ∃ i n, s.fetch = .instr i n ∧ Effect s i t) := by
  unfold step at h
  split at h
  · cases h
  · cases h
  · refine ⟨‹_›, ?_⟩
    split at h
    · exact .inl ⟨_, ‹_›, takeFatal_next h⟩
    · exact .inr (.inl ⟨‹_›, takeFatal_next h⟩)
    · exact .inr (.inr ⟨_, _, ‹_›, exec_cases h⟩)

/-- A step of a running machine whose fetch gives an instruction. -/
theorem step_of_fetch {s : State} {i : Instr} {n : Nat} (hr : s.run = .running) (hf : s.fetch = .instr i n) :
    step s = exec i s := by
  simp only [step, hr, hf]

end Sys2Proof.Machine
end

