-- ==== Sys2Proof/Tests/Slice0.lean ====
section
/-! SUPPORT. The model's own tests: the decoding of words written out from 30_encoding.md R83 and R93, the WellFormed smoke
tests, one or two steps an instruction with results taken from 95_test_vectors.md (each test names its vector), and a
witness for every statement that has hypotheses. -/

namespace Sys2Proof.Tests

open Machine

/-- Reset with `bytes` in memory from address `a` and `PC` at offset `a`. -/
def code (a : Nat) (bytes : List Byte) : State :=
  ({ State.reset with mem := Memory.ofImage a bytes }).setPC (BitVec.ofNat 8 a)

/-- The same with cell `i` holding `v`. -/
def State.holding (s : State) (i : Fin 16) (v : Byte) : State :=
  s.setReg i v

/-- The same with byte `v` at address `a`. -/
def State.byteAt (s : State) (a : Nat) (v : Byte) : State :=
  s.setMem (s.mem.write a v)

/-- The same with this input, ended behind it. -/
def State.given (s : State) (b : List Byte) : State :=
  { s with input := b }

/-- The state after one step; the state itself where there is none. -/
def after (s : State) : State :=
  match step s with
  | .next t => t
  | _ => s

/-! ### Decoding (30_encoding.md R83, R93: opcode byte, then the operands in order) -/

theorem test_decode_exit : decode [0x00, 0x01] = .instr .exit 1 := by decide
theorem test_decode_mov : decode [0x01, 0x02, 0x03, 0x04] = .instr (.movReg8Const8 2 3) 3 := by decide
theorem test_decode_xorMem : decode [0x02, 0x07, 0x20] = .instr (.xorMemReg8Const8 7 0x20) 3 := by decide
theorem test_decode_cmpConst : decode [0x03, 0x01, 0x05] = .instr (.cmpReg8Const8 1 5) 3 := by decide
theorem test_decode_cmpReg : decode [0x04, 0x0A, 0x05] = .instr (.cmpReg8Reg8 10 5) 3 := by decide
theorem test_decode_jump : decode [0x05, 0xFF] = .instr (.jumpIfNotEqual 0xFF) 2 := by decide
theorem test_decode_sub : decode [0x06, 0x08, 0x03] = .instr (.subReg8Const8 8 3) 3 := by decide
theorem test_decode_add : decode [0x07, 0x04, 0x01] = .instr (.addReg8Const8 4 1) 3 := by decide
theorem test_decode_xorConst : decode [0x08, 0x01, 0xFF] = .instr (.xorReg8Const8 1 0xFF) 3 := by decide
theorem test_decode_xorReg : decode [0x09, 0x02, 0x01] = .instr (.xorReg8Reg8 2 1) 3 := by decide
theorem test_decode_read : decode [0x0A, 0x03] = .instr (.readStdinStack 3) 2 := by decide
theorem test_decode_pop : decode [0x0B, 0x09] = .instr (.popReg8 9) 2 := by decide
theorem test_decode_deref : decode [0x0C, 0x03, 0x04, 0x05] = .instr (.derefAddressReg16Reg8 3 4 5) 4 := by decide
theorem test_decode_write : decode [0x0D, 0x59] = .instr (.writeStdoutConst8 0x59) 2 := by decide

/-- V-DEC5: the decoder does not check register operands. -/
theorem test_decode_anyRegister : decode [0x01, 0xFF, 0xFF] = .instr (.movReg8Const8 0xFF 0xFF) 3 := by decide
/-- V-DEC6. -/
theorem test_decode_unknown : decode [0x0E] = .unknownOpcode 0x0E := by decide
/-- V-DEC12, as the bytes of its cursor. -/
theorem test_decode_exhausted : decode [0x0C, 0x00, 0x01] = .exhausted := by decide
/-- V-DEC8 at offset 0xFD and V-DEC9 at 0xFE: the end of the Instruction region. -/
theorem test_fetch_atTheEnd : (code 0xFD [0x01, 0x00, 0x07]).fetch = .instr (.movReg8Const8 0 7) 3 := by decide
theorem test_fetch_pastTheEnd : (code 0xFE [0x01, 0x00, 0x07, 0x07]).fetch = .exhausted := by decide
/-- The host's word: the opcode byte in bits 7..0, the operands above it. -/
theorem test_tableWord : decodeTableWord 32 0x0504030C = some (.derefAddressReg16Reg8 3 4 5) := by decide
theorem test_tableWord_short : decodeTableWord 8 0x0B = some (.popReg8 0) := by decide
theorem test_tableWord_unknown : decodeTableWord 8 0x0E = none := by decide
theorem test_withFetchWord : (after (State.reset.withFetchWord 24 0x030001)).reg 0 = 3 := by decide
theorem test_withFetchWord_high : (after ((code 0xFF []).withFetchWord 24 0x030001)).reg 0 = 3 := by decide

/-! ### WellFormed -/

theorem smoke_registerOperand : ¬ (Instr.movReg8Const8 16 1).WellFormed := by decide
theorem smoke_everyOperand : ¬ (Instr.derefAddressReg16Reg8 3 4 16).WellFormed := by decide
theorem smoke_reservedCell : (Instr.movReg8Const8 15 1).WellFormed := by decide
theorem smoke_fitsAt : ¬ (Instr.movReg8Const8 0 1).FitsAt 0xFE := by decide
theorem smoke_fitsAt_end : (Instr.movReg8Const8 0 1).FitsAt 0xFD := by decide

/-! ### One step (95_test_vectors.md) -/

/-- V-CTL2. -/
theorem test_exit :
    (after (code 0xFF [0x00])).pc = 0x00 ∧ (after (code 0xFF [0x00])).run = .halted := by decide
/-- V-CTL4. -/
theorem test_jump_taken : (after (code 0x10 [0x05, 0x20])).pc = 0x20 := by decide
/-- V-CTL3. -/
theorem test_jump_notTaken : (after ((code 0x10 [0x05, 0x20]).setEqual true)).pc = 0x12 := by decide
/-- V-MA3. -/
theorem test_mov_reserved : (after (code 0 [0x01, 0x0F, 0x77])).reg 15 = 0x77 := by decide
/-- V-CTL8. -/
theorem test_mov_pc : (after (code 0x10 [0x01, 0x08, 0x40])).pc = 0x40 := by decide
/-- V-MA9. -/
theorem test_sub_wraps : (after (code 0 [0x06, 0x00, 0x01])).reg 0 = 0xFF := by decide
/-- V-CTL12. -/
theorem test_sub_pc : (after (code 0 [0x06, 0x08, 0x05])).pc = 0xFE := by decide
/-- V-MA15. -/
theorem test_add_wraps : (after (State.holding (code 0 [0x07, 0x00, 0x02]) 0 0xFF)).reg 0 = 0x01 := by decide
/-- V-CTL10. -/
theorem test_add_pc : (after (code 0xFD [0x07, 0x08, 0x10])).pc = 0x10 := by decide
/-- V-MA20. -/
theorem test_xorConst : (after (State.holding (code 0 [0x08, 0x01, 0xFF]) 1 0x5A)).reg 1 = 0xA5 := by decide
/-- V-CTL13. -/
theorem test_xorConst_pc : (after (code 0x10 [0x08, 0x08, 0x03])).pc = 0x10 := by decide
/-- V-MA26. -/
theorem test_xorReg_readsAdvancedPc : (after (code 0x10 [0x09, 0x00, 0x08])).reg 0 = 0x13 := by decide
/-- V-MA27. -/
theorem test_xorReg_badSource : (after (code 0 [0x09, 0x00, 0x10])).run = .faulted .registerIndexOutOfRange := by
  decide
/-- V-MEM1: no base of 0x100 is added. -/
theorem test_xorMem :
    let t := after (State.byteAt (State.holding (code 0 [0x02, 0x00, 0x20]) 0 0x07) 0x007 0x61)
    t.mem.read 0x007 = 0x41 ∧ t.mem.read 0x107 = 0x00 := by decide
/-- V-LOOP7, its first two steps: the patched byte is fetched next. -/
theorem test_xorMem_patch : (after (after (code 0 [0x02, 0x08, 0x0D, 0x00, 0x5A]))).output = [0x5A] := by decide
/-- V-MEM15: the destination is an address register. -/
theorem test_deref :
    (after (State.byteAt (State.holding (State.holding (code 0 [0x0C, 0x03, 0x04, 0x03]) 3 1) 4 2) 0x102 0x44)).reg 3
      = 0x44 := by decide
/-- V-MEM13, with what R241 records. -/
theorem test_deref_beyond :
    (after (State.holding (code 0 [0x0C, 0x03, 0x04, 0x05]) 3 4)).diagnostic
      = some ⟨.addressOutOfRange, 0x00, .address 0x0400⟩ := by decide
/-- V-CMP2. -/
theorem test_cmpConst_clears :
    (after ((State.holding (code 0 [0x03, 0x00, 0x05]) 0 4).setEqual true)).equal = false := by decide
/-- V-CMP4. -/
theorem test_cmpConst_pc : (after (code 0 [0x03, 0x08, 0x03])).equal = true := by decide
/-- V-CMP7. -/
theorem test_cmpReg :
    (after (State.holding (State.holding (code 0 [0x04, 0x00, 0x05]) 0 0x61) 5 0x61)).equal = true := by decide
/-- V-CMP11, with what R241 records. -/
theorem test_cmpReg_badOperand :
    (after (code 0 [0x04, 0x00, 0xC8])).diagnostic
      = some ⟨.registerIndexOutOfRange, 0x00, .operands [0xC8]⟩ := by decide
/-- V-RS3a. -/
theorem test_read_appendAtSP :
    let s := State.byteAt (State.byteAt ((State.given (code 0 [0x0A, 0x02]) [0x63, 0x64]).setSP 2) 0x300 0x62) 0x301 0x61
    let t := after s
    [t.mem.read 0x300, t.mem.read 0x301, t.mem.read 0x302, t.mem.read 0x303] = [0x62, 0x61, 0x64, 0x63] ∧ t.sp = 4 := by
  decide
/-- V-RS3b. -/
theorem test_read_absoluteZero :
    let s := State.byteAt (State.byteAt ((State.given (code 0 [0x0A, 0x02]) [0x63, 0x64]).setSP 2) 0x300 0x62) 0x301 0x61
    let t := after { s with placement := .absoluteZero }
    [t.mem.read 0x300, t.mem.read 0x301, t.mem.read 0x302, t.mem.read 0x303] = [0x64, 0x63, 0x00, 0x00] ∧ t.sp = 4 := by
  decide
/-- V-POP4. -/
theorem test_pop :
    let t := after (State.byteAt (State.byteAt ((code 0 [0x0B, 0x00]).setSP 0xFF) 0x3FE 0x5D) 0x3FF 0x99)
    t.reg 0 = 0x5D ∧ t.sp = 0xFE := by decide
/-- V-POP5. -/
theorem test_pop_sp : (after (State.byteAt ((code 0 [0x0B, 0x09]).setSP 1) 0x300 0x05)).sp = 0x05 := by decide
/-- V-WR3. -/
theorem test_write :
    (after (code 0xFE [0x0D, 0xFF])).output = [0xFF] ∧ (after (code 0xFE [0x0D, 0xFF])).pc = 0x00 := by decide

/-! ### Witnesses: the hypotheses of each statement, met together, at the ends of their ranges -/

theorem witness_RunStartsWithTheResetValues : (List.replicate 1024 (0xFF : Byte)).length = 1024 := List.length_replicate
theorem witness_ImageOfAnotherLengthIsNotRun : (List.replicate 1023 (0x00 : Byte)).length ≠ 1024 := by
  rw [List.length_replicate]
  decide
theorem witness_LaunchEstablishesTheInvariant :
    ∃ s, launch (List.replicate 1024 0xFF) [] true .absoluteZero = .ok s := ⟨_, if_pos List.length_replicate⟩
theorem witness_EveryStepKeepsTheInvariant :
    (code 0 [0x02, 0x00, 0x02]).Inv ∧ step (code 0 [0x02, 0x00, 0x02]) = .next (after (code 0 [0x02, 0x00, 0x02])) :=
  ⟨⟨by decide, by decide⟩, rfl⟩
theorem witness_DecodeAndEncodeAgree : decode [0x0D, 0x59, 0x00] = .instr (.writeStdoutConst8 0x59) 2 := by decide
theorem witness_IllegalOpcodesAreExactlyAboveThirteen :
    (0x0D : Byte).toNat ≤ 13 ∧ opcodeLength 0x0D ≤ [(0x59 : Byte)].length + 1 := by decide
theorem witness_UnknownOpcodeEndsTheRun :
    (code 0xFF [0x0E]).run = .running ∧ 13 < (code 0xFF [0x0E]).opcodeByte.toNat := by decide
theorem witness_InstructionPastTheRegion_past :
    (code 0xFD [0x0C, 0, 1]).run = .running ∧ (code 0xFD [0x0C, 0, 1]).opcodeByte.toNat ≤ 13 ∧
      0x100 < (code 0xFD [0x0C, 0, 1]).pc.toNat + opcodeLength (code 0xFD [0x0C, 0, 1]).opcodeByte := by decide
theorem witness_InstructionPastTheRegion_atTheEnd :
    (code 0xFD [0x01, 0, 7]).run = .running ∧ (code 0xFD [0x01, 0, 7]).opcodeByte.toNat ≤ 13 ∧
      (code 0xFD [0x01, 0, 7]).pc.toNat + opcodeLength (code 0xFD [0x01, 0, 7]).opcodeByte = 0x100 := by decide
theorem witness_FetchReadsOnlyTheInstructionRegion :
    (State.byteAt (code 0xFE [0x0D, 0x59]) 0x100 0x01).pc = (code 0xFE [0x0D, 0x59]).pc ∧
      ∀ a, (code 0xFE [0x0D, 0x59]).pc.toNat ≤ a → a ≤ min ((code 0xFE [0x0D, 0x59]).pc.toNat + 3) 0xFF →
        (State.byteAt (code 0xFE [0x0D, 0x59]) 0x100 0x01).mem.read a = (code 0xFE [0x0D, 0x59]).mem.read a := by
  refine ⟨by decide, fun a h1 h2 => ?_⟩
  have hpc : (code 0xFE [0x0D, 0x59]).pc.toNat = 0xFE := by decide
  rw [hpc] at h1 h2
  obtain rfl | rfl : a = 0xFE ∨ a = 0xFF := by omega
  · decide
  · decide
theorem witness_StepRunsTheDecodedInstruction :
    (code 0xFE [0x0D, 0x59]).run = .running ∧ (Instr.writeStdoutConst8 0x59).FitsAt (code 0xFE [0x0D, 0x59]).pc.toNat ∧
      (∀ k, k < (Instr.writeStdoutConst8 0x59).len →
        (code 0xFE [0x0D, 0x59]).mem.read ((code 0xFE [0x0D, 0x59]).pc.toNat + k)
          = (encode (.writeStdoutConst8 0x59)).getD k 0) ∧
      (code 0xFE [0x0D, 0x59]).fetch = .instr (.writeStdoutConst8 0x59) 2 := by decide
theorem witness_PlacedWordIsRunNext :
    (code 0xFF [0x0E]).mem.wf = true ∧ decodeTableWord 16 0x590D = some (.writeStdoutConst8 0x59) := by decide
theorem witness_StepAdvancesByTheEncodedLength :
    (code 0xFD [0x01, 0x09, 7]).fetch = .instr (.movReg8Const8 9 7) 3 ∧
      exec (.movReg8Const8 9 7) (code 0xFD [0x01, 0x09, 7]) = .next (after (code 0xFD [0x01, 0x09, 7])) ∧
      (after (code 0xFD [0x01, 0x09, 7])).NotFaulted ∧ ¬ Waits (.movReg8Const8 9 7) (code 0xFD [0x01, 0x09, 7]) ∧
      ¬ (Instr.movReg8Const8 9 7).Jumps (code 0xFD [0x01, 0x09, 7]) := by
  refine ⟨by decide, rfl, ?_, ?_, ?_⟩
  · intro c h
    have hr : (after (code 0xFD [0x01, 0x09, 7])).run = .running := by decide
    rw [hr] at h
    cases h
  · rintro ⟨_, h, -⟩
    cases h
  · rintro (⟨_, h, -⟩ | ⟨r, h, hr⟩)
    · cases h
    · cases h
      exact absurd hr (by decide)
theorem witness_EveryRunningStepHasANextState : State.reset.run = .running := rfl
theorem witness_EndedRunHasNoStep_halted :
    (after State.reset).run ≠ .running ∧ Reaches (after State.reset) (after State.reset) := ⟨by decide, .refl _⟩
theorem witness_EndedRunHasNoStep_faulted : (after (code 0 [0x0E])).run ≠ .running := by decide
theorem witness_ExitHaltsTheRun :
    (step State.reset = .next (after State.reset) ∧ (after State.reset).run = .halted) ∧ State.reset.opcodeByte = 0x00 :=
  ⟨⟨rfl, by decide⟩, by decide⟩
theorem witness_JumpIfNotEqualTestsTheFlag : ∀ target, Instr.exit ≠ .jumpIfNotEqual target := by
  intro _ h
  cases h
theorem witness_FlagBelongs_notCompare :
    exec .exit State.reset = .next (after State.reset) ∧ ¬ Instr.exit.IsCompare := ⟨rfl, id⟩
theorem witness_FlagBelongs_const :
    (0x0F : RegIndex).toNat < 16 ∧
      exec (.cmpReg8Const8 0x0F 0) (code 0 [0x03, 0x0F, 0]) = .next (after (code 0 [0x03, 0x0F, 0])) := ⟨by decide, rfl⟩
theorem witness_FlagBelongs_reg :
    (0x0F : RegIndex).toNat < 16 ∧ (0x00 : RegIndex).toNat < 16 ∧
      exec (.cmpReg8Reg8 0x0F 0) (code 0 [0x04, 0x0F, 0]) = .next (after (code 0 [0x04, 0x0F, 0])) :=
  ⟨by decide, by decide, rfl⟩
/-- Of the statements whose one hypothesis is that an operand names a cell: the first and the last cell. -/
theorem witness_registerOperand : (0x00 : RegIndex).toNat < 16 ∧ (0x0F : RegIndex).toNat < 16 := by decide
theorem witness_MoveWritesTheLiteral : (0x08 : RegIndex).toNat < 16 := by decide
theorem witness_SubtractWritesTheDifference : (0x08 : RegIndex).toNat < 16 := by decide
theorem witness_AddWritesTheSum : (0x09 : RegIndex).toNat < 16 := by decide
theorem witness_XorConstWritesTheExclusiveOr : (0x0F : RegIndex).toNat < 16 := by decide
theorem witness_XorRegWritesTheExclusiveOr : (0x0F : RegIndex).toNat < 16 ∧ (0x08 : RegIndex).toNat < 16 := by decide
theorem witness_OverflowNeverAborts : (0x00 : RegIndex).toNat < 16 := by decide
theorem witness_CompareConstSetsTheFlag : (0x08 : RegIndex).toNat < 16 := by decide
theorem witness_CompareRegSetsTheFlag : (0x0A : RegIndex).toNat < 16 ∧ (0x0A : RegIndex).toNat < 16 := by decide
theorem witness_XorMemChangesOneInstructionByte :
    (0x0F : RegIndex).toNat < 16 ∧ (code 0 [0x02, 0x0F, 1]).mem.wf = true := by decide
/-- The last byte of the address space, 0x3FF. -/
theorem witness_LoadReadsTheCompositeAddress :
    (3 : RegIndex).toNat < 16 ∧ (4 : RegIndex).toNat < 16 ∧ (15 : RegIndex).toNat < 16 ∧
      ((State.holding (State.holding (code 0 []) 3 3) 4 0xFF).operandValue 4 3).toNat * 256
        + ((State.holding (State.holding (code 0 []) 3 3) 4 0xFF).operandValue 4 4).toNat < 0x400 := by decide
/-- The first address beyond it, 0x400. -/
theorem witness_LoadBeyondTheAddressSpaceEndsTheRun :
    (3 : RegIndex).toNat < 16 ∧ (4 : RegIndex).toNat < 16 ∧ (15 : RegIndex).toNat < 16 ∧
      4 ≤ ((State.holding (code 0 []) 3 4).operandValue 4 3).toNat := by decide
theorem witness_RunsNeverWriteTheMemoryRegion : State.reset.Inv ∧ Reaches State.reset (after State.reset) :=
  ⟨⟨by decide, by decide⟩, .step (.refl _) rfl⟩
theorem witness_MemoryHasOnlyTwoWriters_xorMem :
    (code 0 [0x02, 0x00, 0x02]).mem.wf = true ∧
      exec (.xorMemReg8Const8 0 2) (code 0 [0x02, 0x00, 0x02]) = .next (after (code 0 [0x02, 0x00, 0x02])) ∧
      (after (code 0 [0x02, 0x00, 0x02])).mem.read 0 ≠ (code 0 [0x02, 0x00, 0x02]).mem.read 0 :=
  ⟨by decide, rfl, by decide⟩
theorem witness_MemoryHasOnlyTwoWriters_read :
    (State.given (code 0 [0x0A, 0x01]) [7]).mem.wf = true ∧
      exec (.readStdinStack 1) (State.given (code 0 [0x0A, 0x01]) [7])
        = .next (after (State.given (code 0 [0x0A, 0x01]) [7])) ∧
      (after (State.given (code 0 [0x0A, 0x01]) [7])).mem.read 0x300
        ≠ (State.given (code 0 [0x0A, 0x01]) [7]).mem.read 0x300 := ⟨by decide, rfl, by decide⟩
theorem witness_PatchedOpcodeIsExecutedNext :
    (code 0xFC [0x02, 0x08, 0x0D, 0x0D]).Inv ∧ (code 0xFC [0x02, 0x08, 0x0D, 0x0D]).run = .running ∧
      (code 0xFC [0x02, 0x08, 0x0D, 0x0D]).mem.read ((code 0xFC [0x02, 0x08, 0x0D, 0x0D]).pc + 3).toNat = 0x0D :=
  ⟨⟨by decide, by decide⟩, by decide, by decide⟩
/-- V-RS9: the region is filled exactly. -/
theorem witness_ReadPushesTheInputReversed :
    ((State.given (code 0 [0x0A, 1]) [1, 2]).setSP 0xFF).mem.wf = true ∧
      ((State.given (code 0 [0x0A, 1]) [1, 2]).setSP 0xFF).inPos + (1 : Byte).toNat ≤ 2 ∧
      ((State.given (code 0 [0x0A, 1]) [1, 2]).setSP 0xFF).input.length = 2 ∧
      ((State.given (code 0 [0x0A, 1]) [1, 2]).setSP 0xFF).sp.toNat + (1 : Byte).toNat ≤ 256 := by decide
/-- V-RS11, first clause: the input ends first, and the bytes would not fit. -/
theorem witness_ReadThatFails_exhausted :
    (2 : Byte) ≠ 0 ∧ ((State.given (code 0 [0x0A, 2]) [1]).setSP 0xFF).inputEnded = true ∧
      ((State.given (code 0 [0x0A, 2]) [1]).setSP 0xFF).input.length
        < ((State.given (code 0 [0x0A, 2]) [1]).setSP 0xFF).inPos + (2 : Byte).toNat := by decide
/-- V-RS8, second clause: the bytes are there and one too many. -/
theorem witness_ReadThatFails_overflow :
    (2 : Byte) ≠ 0 ∧ ((State.given (code 0 [0x0A, 2]) [1, 2]).setSP 0xFF).inPos + (2 : Byte).toNat
        ≤ ((State.given (code 0 [0x0A, 2]) [1, 2]).setSP 0xFF).input.length ∧
      256 < ((State.given (code 0 [0x0A, 2]) [1, 2]).setSP 0xFF).sp.toNat + (2 : Byte).toNat := by decide
theorem witness_ReadWaitsForItsBytes :
    (2 : Byte) ≠ 0 ∧ ({ State.given (code 0 [0x0A, 2]) [1] with inputEnded := false }).inputEnded = false ∧
      ({ State.given (code 0 [0x0A, 2]) [1] with inputEnded := false }).input.length < 0 + (2 : Byte).toNat ∧
      0 + (2 : Byte).toNat ≤ ([1] ++ [2] : List Byte).length := by decide
theorem witness_PlacementsAgreeOnAnEmptyStack :
    (State.given (code 0 [0x0A, 1]) [7]).sp = 0 ∧
      exec (.readStdinStack 1) (State.given (code 0 [0x0A, 1]) [7])
        = .next (after (State.given (code 0 [0x0A, 1]) [7])) := ⟨by decide, rfl⟩
theorem witness_PopReadsBelowTheStackPointer :
    (9 : RegIndex).toNat < 16 ∧ ((code 0 [0x0B, 9]).setSP 1).sp ≠ 0 ∧ ((code 0 [0x0B, 9]).setSP 0xFF).sp ≠ 0 := by decide
theorem witness_PopOfAnEmptyStackEndsTheRun : (15 : RegIndex).toNat < 16 ∧ (code 0 [0x0B, 15]).sp = 0 := by decide
theorem witness_FirstByteToArriveIsPoppedFirst :
    (9 : RegIndex).toNat < 16 ∧ ((State.given (code 0 [0x0A, 1]) [7]).setSP 0xFE).mem.wf = true ∧ (1 : Byte) ≠ 0 ∧
      ((State.given (code 0 [0x0A, 1]) [7]).setSP 0xFE).inPos + (1 : Byte).toNat
        ≤ ((State.given (code 0 [0x0A, 1]) [7]).setSP 0xFE).input.length ∧
      ((State.given (code 0 [0x0A, 1]) [7]).setSP 0xFE).sp.toNat + (1 : Byte).toNat ≤ 255 ∧
      ((State.given (code 0 [0x0A, 1]) [7]).setSP 0xFE).placement = .appendAtSP ∧
      exec (.readStdinStack 1) ((State.given (code 0 [0x0A, 1]) [7]).setSP 0xFE)
        = .next (after ((State.given (code 0 [0x0A, 1]) [7]).setSP 0xFE)) :=
  ⟨by decide, by decide, by decide, by decide, by decide, by decide, rfl⟩
theorem witness_OutputIsNeverRead : step (code 0 [0x0D, 0x41]) = .next (after (code 0 [0x0D, 0x41])) := rfl
theorem witness_OnlyReadsConsumeInput :
    step (State.given (code 0 [0x0A, 1]) [7]) = .next (after (State.given (code 0 [0x0A, 1]) [7])) ∧
      (after (State.given (code 0 [0x0A, 1]) [7])).inPos ≠ (State.given (code 0 [0x0A, 1]) [7]).inPos :=
  ⟨rfl, by decide⟩
theorem witness_OutOfRangeRegisterOperandEndsTheRun :
    ¬ (Instr.popReg8 16).WellFormed ∧ ¬ (Instr.xorReg8Reg8 0 0xFF).WellFormed := by decide
/-- Every cause is raised by some step of a running machine: V-F1, V-F2, V-F4, V-F5, V-F6, V-F7 and V-RS8. -/
theorem witness_FatalConditionsAreExactlyTheTable :
    (after (code 0 [0x0E])).run = .faulted .unknownOpcode ∧
    (after (code 0xFE [0x01, 0])).run = .faulted .decodeExhausted ∧
    (after (code 0 [0x0B, 0])).run = .faulted .stackEmpty ∧
    (after (State.given (code 0 [0x0A, 3]) [0x61, 0x62])).run = .faulted .inputExhausted ∧
    (after (code 0 [0x01, 0x10, 1])).run = .faulted .registerIndexOutOfRange ∧
    (after (State.holding (code 0 [0x0C, 3, 4, 5]) 3 4)).run = .faulted .addressOutOfRange ∧
    (after ((State.given (code 0 [0x0A, 2]) [1, 2]).setSP 0xFF)).run = .faulted .stackOverflow := by decide
theorem witness_DiagnosticNamesCauseAndAddress :
    (code 0xFF [0x0E]).run = .running ∧ step (code 0xFF [0x0E]) = .next (after (code 0xFF [0x0E])) ∧
      (after (code 0xFF [0x0E])).run = .faulted .unknownOpcode := ⟨by decide, rfl, by decide⟩

end Sys2Proof.Tests
end

/-! ## The state family: the comparison flag, and the start of a run -/

namespace Sys2Proof.Machine

/-! ### The comparison flag (10_state.md R31) -/

/-- A fatal condition and a wait included: the two compares are the only effects that set the flag. -/
theorem Effect.equal_of_not_isCompare {s t : State} {i : Instr} (h : Effect s i t) (hi : ¬ i.IsCompare) :
    t.equal = s.equal := by
  cases h with
  | cmpConst => exact absurd trivial hi
  | cmpReg => exact absurd trivial hi
  | _ => rfl

/-- An effect of an instruction other than the jump is also its effect from the state with another flag: no side condition
of `Effect` but the jump's two mentions the flag, and the states left differ in the flag alone. -/
theorem Effect.exists_setEqual {s t : State} {i : Instr} (h : Effect s i t)
    (hi : ∀ target, i ≠ .jumpIfNotEqual target) (b : Bool) :
    ∃ u, Effect (s.setEqual b) i u ∧ u.setEqual t.equal = t := by
  cases h with
  | stay target => exact absurd rfl (hi target)
  | jump target => exact absurd rfl (hi target)
  | exit => exact ⟨_, .exit, rfl⟩
  | mov r v h => exact ⟨_, .mov r v h, rfl⟩
  | sub r v h => exact ⟨_, .sub r v h, rfl⟩
  | add r v h => exact ⟨_, .add r v h, rfl⟩
  | xorConst r v h => exact ⟨_, .xorConst r v h, rfl⟩
  | xorReg d r hd hr => exact ⟨_, .xorReg d r hd hr, rfl⟩
  | cmpConst r v h => exact ⟨_, .cmpConst r v h, rfl⟩
  | cmpReg a b ha hb => exact ⟨_, .cmpReg a b ha hb, rfl⟩
  | xorMem r v h => exact ⟨_, .xorMem r v h, rfl⟩
  | deref h l d hh hl hd hea => exact ⟨_, .deref h l d hh hl hd hea, rfl⟩
  | pop r h h0 => exact ⟨_, .pop r h h0, rfl⟩
  | write byte => exact ⟨_, .write byte, rfl⟩
  | readNone => exact ⟨_, .readNone, rfl⟩
  | read count h0 ha hf => exact ⟨_, .read count h0 ha hf, rfl⟩
  | wait count h0 ha he => exact ⟨_, .wait count h0 ha he, rfl⟩
  | inputExhausted count h0 ha he => exact ⟨_, .inputExhausted count h0 ha he, rfl⟩
  | stackOverflow count h0 ha hf => exact ⟨_, .stackOverflow count h0 ha hf, rfl⟩
  | stackEmpty r h h0 => exact ⟨_, .stackEmpty r h h0, rfl⟩
  | addressOutOfRange h l d hh hl hd hea => exact ⟨_, .addressOutOfRange h l d hh hl hd hea, rfl⟩
  | registerIndexOutOfRange i h => exact ⟨_, .registerIndexOutOfRange i h, rfl⟩

theorem ignoresFlag_of_ne_jumpIfNotEqual {i : Instr} (hi : ∀ target, i ≠ .jumpIfNotEqual target) :
    IgnoresFlag i := by
  intro s t b h
  obtain ⟨u, hu, hut⟩ := (exec_cases h).exists_setEqual hi b
  exact ⟨u, exec_of_effect hu, hut⟩

theorem equal_of_exec_cmpReg8Const8 {s t : State} {r : RegIndex} {v : Byte} (h : r.toNat < 16)
    (he : exec (.cmpReg8Const8 r v) s = .next t) : t.equal = decide (s.operandValue 3 ⟨r.toNat, h⟩ = v) := by
  rw [exec_cmpReg8Const8 h] at he
  cases he
  exact beq_eq_decide ..

theorem equal_of_exec_cmpReg8Reg8 {s t : State} {a b : RegIndex} (ha : a.toNat < 16) (hb : b.toNat < 16)
    (he : exec (.cmpReg8Reg8 a b) s = .next t) :
    t.equal = decide (s.operandValue 3 ⟨a.toNat, ha⟩ = s.operandValue 3 ⟨b.toNat, hb⟩) := by
  rw [exec_cmpReg8Reg8 ha hb] at he
  cases he
  exact beq_eq_decide ..

/-- Settles O19: the compares by their execute rules, the rest by inversion of `exec`. -/
theorem flagBelongsToComparesAndTheJump : Obligations.FlagBelongsToComparesAndTheJump :=
  ⟨fun _ _ _ h hi => (exec_cases h).equal_of_not_isCompare hi,
    fun _ _ _ _ h he => equal_of_exec_cmpReg8Const8 h he,
    fun _ _ _ _ ha hb he => equal_of_exec_cmpReg8Reg8 ha hb he,
    fun _ hi => ignoresFlag_of_ne_jumpIfNotEqual hi⟩

/-! ### The start of a run (10_state.md R38; 70_reset_and_hazards.md R270) -/

@[simp] theorem State.reg_reset (j : Fin 16) : State.reset.reg j = 0 := by
  simp [State.reg, State.reset]

@[simp] theorem State.pc_reset : State.reset.pc = 0 :=
  State.reg_reset idxPC

theorem launch_of_length {image : List Byte} (h : image.length = Config.asSize) (input : List Byte) (ended : Bool)
    (placement : ReadPlacement) :
    launch image input ended placement =
      .ok { State.reset with mem := Memory.ofImage 0 image, input, inputEnded := ended, placement } :=
  if_pos h

/-- The first bytes of a memory made of an image, read one after the other, are the image's first bytes. -/
theorem Memory.map_read_ofImage_range (a : Nat) {vs : List Byte} {n : Nat} (h : n ≤ vs.length) :
    (List.range n).map (fun k => (Memory.ofImage a vs).read (a + k)) = vs.take n := by
  refine List.ext_getElem (by simp [h]) fun k hk hk' => ?_
  have hkn : k < n := by simpa using hk
  have hlt : k < vs.length := hkn.trans_le h
  simp [Memory.read_ofImage, hlt]

/-- With `PC` at 0 the decoder's cursor is the first four bytes of memory. -/
theorem State.cursor_of_pc_zero {s : State} (h : s.pc = 0) :
    s.cursor = (List.range Config.maxLen).map fun k => s.mem.read (0 + k) := by
  rw [State.cursor, h]
  rfl

/-- Settles O1: the registers and the cursor of a launched state follow from those of reset and of its image. -/
theorem runStartsWithTheResetValues : Obligations.RunStartsWithTheResetValues := by
  refine ⟨⟨State.reg_reset, rfl, fun _ => rfl, rfl, rfl, rfl⟩, fun image input ended placement hlen => ?_⟩
  refine ⟨_, launch_of_length hlen input ended placement, State.reg_reset, rfl, fun k _ => ?_, rfl,
    State.pc_reset, ?_, rfl, rfl, rfl, rfl, rfl⟩
  · exact Memory.read_ofImage 0 image k
  · have hfour : Config.maxLen ≤ image.length := by rw [hlen]; decide
    exact Eq.trans (State.cursor_of_pc_zero State.pc_reset) (Memory.map_read_ofImage_range 0 hfour)

end Sys2Proof.Machine

/-! ## The encoding family: the decoder against the encoder, and the advance of `PC` -/

namespace Sys2Proof

open Machine

/-! ### What the encoder says of each instruction (30_encoding.md R81, R88, R90) -/

/-- An arm of the decoder for each instruction undoes its encoding, whatever follows the encoding. -/
@[simp] theorem decode_encode_append (i : Instr) (rest : List Byte) :
    decode (encode i ++ rest) = .instr i i.len := by
  cases i <;> rfl

@[simp] theorem length_encode (i : Instr) : (encode i).length = i.len := by
  cases i <;> rfl

/-- The two ways to state R88, by opcode byte and by instruction, agree. -/
theorem opcodeLength_opcode (i : Instr) : opcodeLength i.opcode = i.len := by
  cases i <;> rfl

/-! ### What the decoder does with a legal opcode byte, by format (30_encoding.md R82) -/

/-- A legal opcode byte `op` with `rest` behind it is the encoding of an instruction and more bytes, or it lacks operand
bytes and the decoder is exhausted. -/
def EncodedOrExhausted (op : Byte) (rest : List Byte) : Prop :=
  (∃ i, encode i <+: op :: rest) ∨ (decode (op :: rest) = .exhausted ∧ rest.length + 1 < opcodeLength op)

section Formats
variable {op : Byte} (rest : List Byte)

theorem EncodedOrExhausted.of_takeOperand (f : Byte → Instr)
    (hd : decode (op :: rest) = takeOperand rest f) (he : ∀ a, encode (f a) = [op, a])
    (hl : opcodeLength op = 2) : EncodedOrExhausted op rest :=
  match rest with
  | [] => .inr ⟨hd, by simp [hl]⟩
  | a :: _ => .inl ⟨f a, by simp [he]⟩

theorem EncodedOrExhausted.of_takeOperands2 (f : Byte → Byte → Instr)
    (hd : decode (op :: rest) = takeOperands2 rest f) (he : ∀ a b, encode (f a b) = [op, a, b])
    (hl : opcodeLength op = 3) : EncodedOrExhausted op rest :=
  match rest with
  | [] | [_] => .inr ⟨hd, by simp [hl]⟩
  | a :: b :: _ => .inl ⟨f a b, by simp [he]⟩

theorem EncodedOrExhausted.of_takeOperands3 (f : Byte → Byte → Byte → Instr)
    (hd : decode (op :: rest) = takeOperands3 rest f) (he : ∀ a b c, encode (f a b c) = [op, a, b, c])
    (hl : opcodeLength op = 4) : EncodedOrExhausted op rest :=
  match rest with
  | [] | [_] | [_, _] => .inr ⟨hd, by simp [hl]⟩
  | a :: b :: c :: _ => .inl ⟨f a b c, by simp [he]⟩

end Formats

/-- One format an opcode byte, as the table of opcodes lists them. -/
theorem encodedOrExhausted_of_le {op : Byte} (h : op.toNat ≤ 13) (rest : List Byte) : EncodedOrExhausted op rest := by
  obtain ⟨k, hk, rfl⟩ : ∃ k ≤ 13, op = BitVec.ofNat 8 k := ⟨op.toNat, h, by simp⟩
  interval_cases k
  · exact .inl ⟨.exit, by simp [encode, Instr.opcode, Instr.operands]⟩
  · exact .of_takeOperands2 rest .movReg8Const8 rfl (fun _ _ => rfl) rfl
  · exact .of_takeOperands2 rest .xorMemReg8Const8 rfl (fun _ _ => rfl) rfl
  · exact .of_takeOperands2 rest .cmpReg8Const8 rfl (fun _ _ => rfl) rfl
  · exact .of_takeOperands2 rest .cmpReg8Reg8 rfl (fun _ _ => rfl) rfl
  · exact .of_takeOperand rest .jumpIfNotEqual rfl (fun _ => rfl) rfl
  · exact .of_takeOperands2 rest .subReg8Const8 rfl (fun _ _ => rfl) rfl
  · exact .of_takeOperands2 rest .addReg8Const8 rfl (fun _ _ => rfl) rfl
  · exact .of_takeOperands2 rest .xorReg8Const8 rfl (fun _ _ => rfl) rfl
  · exact .of_takeOperands2 rest .xorReg8Reg8 rfl (fun _ _ => rfl) rfl
  · exact .of_takeOperand rest .readStdinStack rfl (fun _ => rfl) rfl
  · exact .of_takeOperand rest .popReg8 rfl (fun _ => rfl) rfl
  · exact .of_takeOperands3 rest .derefAddressReg16Reg8 rfl (fun _ _ _ => rfl) rfl
  · exact .of_takeOperand rest .writeStdoutConst8 rfl (fun _ => rfl) rfl

/-! ### The answers of the decoder (40_decoder.md R110 to R114) -/

/-- No arm of the decoder is for an opcode byte above 13. -/
theorem decode_of_gt {op : Byte} (h : 13 < op.toNat) (rest : List Byte) :
    decode (op :: rest) = .unknownOpcode op := by
  simp only [decode]
  split
  case h_15 => rfl
  all_goals omega

theorem decode_of_encode_prefix {i : Instr} {bytes : List Byte} (h : encode i <+: bytes) :
    decode bytes = .instr i i.len := by
  obtain ⟨rest, rfl⟩ := h
  exact decode_encode_append i rest

/-- The inversion of `decode`: the bytes of an instruction and more, an opcode byte above 13, or too few bytes. -/
theorem decode_cases (bytes : List Byte) :
    (∃ i, encode i <+: bytes ∧ decode bytes = .instr i i.len) ∨
      (∃ op rest, bytes = op :: rest ∧ 13 < op.toNat ∧ decode bytes = .unknownOpcode op) ∨
      (decode bytes = .exhausted ∧ ∀ op rest, bytes = op :: rest →
        op.toNat ≤ 13 ∧ rest.length + 1 < opcodeLength op) := by
  cases bytes with
  | nil => exact .inr (.inr ⟨rfl, fun _ _ h => nomatch h⟩)
  | cons op rest =>
    by_cases hop : 13 < op.toNat
    · exact .inr (.inl ⟨op, rest, rfl, hop, decode_of_gt hop rest⟩)
    · obtain ⟨i, hi⟩ | ⟨hd, hl⟩ := encodedOrExhausted_of_le (Nat.le_of_not_lt hop) rest
      · exact .inl ⟨i, hi, decode_of_encode_prefix hi⟩
      · refine .inr (.inr ⟨hd, ?_⟩)
        rintro _ _ ⟨⟩
        exact ⟨Nat.le_of_not_lt hop, hl⟩

/-- The decoder answers an instruction exactly on its encoding, with its length (30_encoding.md R90). -/
theorem decode_eq_instr_iff {bytes : List Byte} {i : Instr} {n : Nat} :
    decode bytes = .instr i n ↔ encode i <+: bytes ∧ n = i.len := by
  refine ⟨fun h => ?_, fun ⟨hi, hn⟩ => hn ▸ decode_of_encode_prefix hi⟩
  obtain ⟨j, hj, hd⟩ | ⟨_, _, _, _, hd⟩ | ⟨hd, _⟩ := decode_cases bytes
  · rw [hd] at h
    cases h
    exact ⟨hj, rfl⟩
  · simp [hd] at h
  · simp [hd] at h

/-- Settles O6: the round trip is one arm of the decoder an instruction, the converse the inversion of `decode`. -/
theorem decodeAndEncodeAgree : Obligations.DecodeAndEncodeAgree := by
  refine ⟨fun i rest => ⟨decode_encode_append i rest, length_encode i⟩, fun bytes i n h => ?_⟩
  obtain ⟨hi, rfl⟩ := decode_eq_instr_iff.1 h
  refine ⟨rfl, ?_⟩
  rw [← length_encode]
  exact List.prefix_iff_eq_take.1 hi

/-- The illegal encodings are those with an opcode byte above 13 (30_encoding.md R85). -/
theorem decode_eq_unknownOpcode_iff (op : Byte) (rest : List Byte) :
    decode (op :: rest) = .unknownOpcode op ↔ 13 < op.toNat := by
  refine ⟨fun h => Nat.lt_of_not_le fun hle => ?_, fun h => decode_of_gt h rest⟩
  obtain ⟨i, hi⟩ | ⟨hd, _⟩ := encodedOrExhausted_of_le hle rest
  · simp [decode_of_encode_prefix hi] at h
  · simp [hd] at h

/-- An instruction's encoding starts with its opcode byte, which gives its length. -/
theorem opcodeLength_of_encode_prefix {i : Instr} {op : Byte} {rest : List Byte} (h : encode i <+: op :: rest) :
    opcodeLength op = i.len := by
  obtain ⟨hop, _⟩ := List.cons_prefix_cons.1 h
  rw [← hop, opcodeLength_opcode]

/-- With a legal opcode byte and enough bytes the decoder answers an instruction, operand values unchecked (R114). -/
theorem exists_decode_eq_instr {op : Byte} {rest : List Byte} (hop : op.toNat ≤ 13)
    (hl : opcodeLength op ≤ rest.length + 1) : ∃ i, decode (op :: rest) = .instr i (opcodeLength op) := by
  obtain ⟨i, hi⟩ | ⟨_, hshort⟩ := encodedOrExhausted_of_le hop rest
  · exact ⟨i, by rw [opcodeLength_of_encode_prefix hi, decode_of_encode_prefix hi]⟩
  · omega

/-- Settles O8: the count is that of the numbers from 14 to 255. -/
theorem illegalOpcodesAreExactlyAboveThirteen : Obligations.IllegalOpcodesAreExactlyAboveThirteen := by
  refine ⟨decode_eq_unknownOpcode_iff, fun op rest => exists_decode_eq_instr, ?_⟩
  simp only [decode_eq_unknownOpcode_iff]
  rfl

end Sys2Proof

namespace Sys2Proof.Machine

/-! ### The advance of `PC` (30_encoding.md R88; 10_state.md R27) -/

/-- `PC` is an offset of the Instruction region, so the decoder always sees the byte there. -/
theorem State.exists_cursor_eq_cons (s : State) : ∃ rest, s.cursor = s.opcodeByte :: rest := by
  have hpc : s.pc.toNat < Config.instrEnd := s.pc.isLt
  obtain ⟨k, hk⟩ : ∃ k, min Config.maxLen (Config.instrEnd - s.pc.toNat) = k + 1 :=
    Nat.exists_eq_succ_of_ne_zero (by simp only [Config.maxLen]; omega)
  rw [State.cursor, hk, List.range_succ_eq_map]
  exact ⟨_, rfl⟩

/-- What a fetched instruction's length is: its own, and that of the opcode byte at `PC`. -/
theorem State.length_of_fetch {s : State} {i : Instr} {n : Nat} (h : s.fetch = .instr i n) :
    n = opcodeLength s.opcodeByte ∧ n = i.len := by
  obtain ⟨rest, hrest⟩ := s.exists_cursor_eq_cons
  rw [State.fetch, hrest] at h
  obtain ⟨hi, rfl⟩ := decode_eq_instr_iff.1 h
  exact ⟨(opcodeLength_of_encode_prefix hi).symm, rfl⟩

theorem State.pc_setReg_of_ne {s : State} {j : Fin 16} (h : j ≠ idxPC) (v : Byte) : (s.setReg j v).pc = s.pc := by
  rw [State.pc, State.reg_setReg, if_neg h.symm]
  rfl

/-- A write through the destination operand of an instruction that is no jump leaves `PC` alone. -/
theorem State.pc_setReg_of_not_jumps {s u : State} {i : Instr} {r : RegIndex} (hj : ¬ i.Jumps s)
    (hd : i.destination = some r) (hr : r.toNat < 16) (v : Byte) : (u.setReg ⟨r.toNat, hr⟩ v).pc = u.pc :=
  State.pc_setReg_of_ne (fun h => hj (.inr ⟨r, hd, congrArg Fin.val h⟩)) v

theorem not_notFaulted_faultedBy (s : State) (c : Cause) : ¬ (s.faultedBy c).NotFaulted :=
  fun h => h c rfl

theorem State.request_eq_pending {s : State} {n : Nat} (ha : s.available.length < n) (he : s.inputEnded = false) :
    s.request n = .pending := by
  simp [State.request, Nat.not_le.2 ha, he]

/-- An effect that is no fatal condition, no wait and no jump moves `PC` past the instruction and nowhere else. -/
theorem Effect.pc_eq {s t : State} {i : Instr} (h : Effect s i t) (hf : t.NotFaulted) (hw : ¬ Waits i s)
    (hj : ¬ i.Jumps s) : t.pc = s.pc + BitVec.ofNat 8 i.len := by
  rw [← State.pc_advance]
  cases h with
  | exit | stay | cmpConst | cmpReg | xorMem | write | readNone => rfl
  | read => exact State.pc_setSP ..
  | jump target he => exact absurd (.inl ⟨target, rfl, he⟩) hj
  | mov | sub | add | xorConst | xorReg | deref => exact State.pc_setReg_of_not_jumps hj rfl _ _
  | pop => exact (State.pc_setReg_of_not_jumps hj rfl _ _).trans (State.pc_setSP ..)
  | wait count h0 ha he => exact absurd ⟨count, rfl, h0, State.request_eq_pending ha he⟩ hw
  | inputExhausted | stackOverflow | stackEmpty | addressOutOfRange | registerIndexOutOfRange =>
    exact absurd hf (not_notFaulted_faultedBy _ _)

/-- Settles O14: the length from the fetch, the advance by the cases of `Effect`. -/
theorem stepAdvancesByTheEncodedLength : Obligations.StepAdvancesByTheEncodedLength := by
  intro s t i n hfetch
  obtain ⟨hop, hlen⟩ := State.length_of_fetch hfetch
  exact ⟨hop, hlen, fun he hf hw hj => hlen ▸ (exec_cases he).pc_eq hf hw hj⟩

end Sys2Proof.Machine

/-! ## The decoder family: the fetch at `PC`, and the end of the Instruction region -/

namespace Sys2Proof

open Machine

/-- A legal opcode byte with too few operand bytes behind it exhausts the decoder (40_decoder.md R113). -/
theorem decode_eq_exhausted {op : Byte} {rest : List Byte} (hop : op.toNat ≤ 13)
    (hl : rest.length + 1 < opcodeLength op) : decode (op :: rest) = .exhausted := by
  obtain ⟨i, hi⟩ | ⟨hd, _⟩ := encodedOrExhausted_of_le hop rest
  · have hle : i.len ≤ rest.length + 1 := length_encode i ▸ hi.length_le
    have hlen : opcodeLength op = i.len := opcodeLength_of_encode_prefix hi
    omega
  · exact hd

theorem opcodeLength_le_maxLen (op : Byte) : opcodeLength op ≤ Config.maxLen := by
  unfold opcodeLength
  split_ifs <;> decide

namespace Machine

/-! ### The cursor (40_decoder.md R113, R117) -/

@[simp] theorem State.length_cursor (s : State) :
    s.cursor.length = min Config.maxLen (Config.instrEnd - s.pc.toNat) := by
  simp [State.cursor]

theorem State.getElem_cursor (s : State) {k : Nat} (h : k < s.cursor.length) :
    s.cursor[k] = s.mem.read (s.pc.toNat + k) := by
  simp [State.cursor]

/-- The cursor holds all bytes of an instruction exactly when the instruction ends inside the Instruction region: no
instruction is longer than the cursor can be. -/
theorem State.opcodeLength_le_length_cursor_iff (s : State) (op : Byte) :
    opcodeLength op ≤ s.cursor.length ↔ s.pc.toNat + opcodeLength op ≤ Config.instrEnd := by
  have hpc : s.pc.toNat < Config.instrEnd := s.pc.isLt
  have hmax : opcodeLength op ≤ Config.maxLen := opcodeLength_le_maxLen op
  rw [State.length_cursor]
  omega

/-! ### The three answers of a fetch -/

theorem State.fetch_eq_unknownOpcode {s : State} (h : 13 < s.opcodeByte.toNat) :
    s.fetch = .unknownOpcode s.opcodeByte := by
  obtain ⟨rest, hrest⟩ := s.exists_cursor_eq_cons
  rw [State.fetch, hrest]
  exact decode_of_gt h rest

theorem State.fetch_eq_exhausted {s : State} (hop : s.opcodeByte.toNat ≤ 13)
    (h : Config.instrEnd < s.pc.toNat + opcodeLength s.opcodeByte) : s.fetch = .exhausted := by
  have hshort : s.cursor.length < opcodeLength s.opcodeByte :=
    Nat.lt_of_not_le fun hle => Nat.not_le.2 h ((s.opcodeLength_le_length_cursor_iff _).1 hle)
  obtain ⟨rest, hrest⟩ := s.exists_cursor_eq_cons
  rw [hrest] at hshort
  rw [State.fetch, hrest]
  exact decode_eq_exhausted hop hshort

theorem State.exists_fetch_eq_instr {s : State} (hop : s.opcodeByte.toNat ≤ 13)
    (h : s.pc.toNat + opcodeLength s.opcodeByte ≤ Config.instrEnd) :
    ∃ i, s.fetch = .instr i (opcodeLength s.opcodeByte) := by
  have hfits : opcodeLength s.opcodeByte ≤ s.cursor.length := (s.opcodeLength_le_length_cursor_iff _).2 h
  obtain ⟨rest, hrest⟩ := s.exists_cursor_eq_cons
  rw [hrest] at hfits
  rw [State.fetch, hrest]
  exact exists_decode_eq_instr hop hfits

/-- The encoding of a fetched instruction stands in memory from `PC` upward. -/
theorem State.getD_encode_of_fetch {s : State} {i : Instr} {n k : Nat} (h : s.fetch = .instr i n) (hk : k < n) :
    (encode i).getD k 0 = s.mem.read (s.pc.toNat + k) := by
  obtain ⟨hi, rfl⟩ := decode_eq_instr_iff.1 h
  have hk' : k < (encode i).length := by rwa [length_encode]
  calc (encode i).getD k 0 = (encode i)[k] := List.getD_eq_getElem _ _ hk'
    _ = s.cursor[k]'(hk'.trans_le hi.length_le) := hi.getElem hk'
    _ = s.mem.read (s.pc.toNat + k) := s.getElem_cursor _

/-! ### The steps that end a run in the decoder, and the advance at the region's end -/

theorem step_of_fetch_unknownOpcode {s : State} {b : Byte} (hr : s.run = .running) (hf : s.fetch = .unknownOpcode b) :
    step s = .next (s.faultedBy .unknownOpcode) := by
  simp only [step, hr, hf, takeFatal]

theorem step_of_fetch_exhausted {s : State} (hr : s.run = .running) (hf : s.fetch = .exhausted) :
    step s = .next (s.faultedBy .decodeExhausted) := by
  simp only [step, hr, hf, takeFatal]

/-- `PC` wraps to 0 behind an instruction that ends at offset 0xFF (10_state.md R27). -/
theorem State.pc_advance_eq_zero {s : State} {n : Nat} (h : s.pc.toNat + n = Config.instrEnd) :
    (s.advance n).pc = 0 := by
  apply BitVec.eq_of_toNat_eq
  simp [h, Config.instrEnd]

/-- Settles O9: both halves from the decoder's answer to an opcode byte above 13. -/
theorem unknownOpcodeEndsTheRun : Obligations.UnknownOpcodeEndsTheRun :=
  ⟨fun _ hr hop => step_of_fetch_unknownOpcode hr (State.fetch_eq_unknownOpcode hop),
    fun _ rest rest' hop => (decode_of_gt hop rest).trans (decode_of_gt hop rest').symm⟩

/-- Settles O10: whether the instruction fits decides what the fetch answers. -/
theorem instructionPastTheRegionEndsTheRun : Obligations.InstructionPastTheRegionEndsTheRun := by
  intro s hr hop
  refine ⟨fun hpast => step_of_fetch_exhausted hr (State.fetch_eq_exhausted hop hpast), fun hfits => ?_,
    State.pc_advance_eq_zero⟩
  obtain ⟨i, hi⟩ := State.exists_fetch_eq_instr hop hfits
  exact ⟨i, hi, step_of_fetch hr hi, fun _ hk => State.getD_encode_of_fetch hi hk⟩

end Machine

end Sys2Proof

/-! ## The control family: `Exit` and `JumpIfNotEqual` -/

namespace Sys2Proof.Machine

/-! ### The end of a run by `Exit` (41_control.md R130; 46_fetch_execute_loop.md R203, R204) -/

/-- An ended run has no step. -/
theorem step_ne_next {s : State} (h : s.run ≠ .running) (t : State) : step s ≠ .next t := by
  intro ht
  obtain ⟨hr, -⟩ := step_cases ht
  exact h hr

/-- Every effect but `Exit`'s leaves the run state as it was, or is a fatal condition. -/
theorem Effect.eq_exit_of_run_halted {s t : State} {i : Instr} (h : Effect s i t) (hs : s.run = .running)
    (ht : t.run = .halted) : i = .exit := by
  have hne : s.run ≠ .halted := by simp [hs]
  cases h with
  | exit => rfl
  | inputExhausted | stackOverflow | stackEmpty | addressOutOfRange | registerIndexOutOfRange => cases ht
  | _ => exact absurd ht hne

/-- A fatal condition of decode does not halt, so a step that halts ran an instruction. -/
theorem fetch_eq_exit_of_step_halted {s t : State} (h : step s = .next t) (ht : t.run = .halted) :
    s.fetch = .instr .exit 1 := by
  obtain ⟨hs, ⟨_, -, rfl⟩ | ⟨-, rfl⟩ | ⟨i, n, hf, he⟩⟩ := step_cases h
  · cases ht
  · cases ht
  · obtain rfl : i = .exit := he.eq_exit_of_run_halted hs ht
    obtain ⟨-, rfl⟩ := State.length_of_fetch hf
    exact hf

/-- Nothing has to stand behind a zero byte for it to be fetched as `Exit`, so it is at offset 0xFF too. -/
theorem State.fetch_of_opcodeByte_zero {s : State} (h : s.opcodeByte = 0x00) : s.fetch = .instr .exit 1 := by
  obtain ⟨rest, hrest⟩ := s.exists_cursor_eq_cons
  rw [State.fetch, hrest, h]
  exact decode_encode_append .exit rest

/-- Settles O17: the effect from the execute rule, the only way to halt by inversion of `step`. -/
theorem exitHaltsTheRun : Obligations.ExitHaltsTheRun := by
  refine ⟨fun s => ?_, fun _ _ => fetch_eq_exit_of_step_halted, fun _ => State.fetch_of_opcodeByte_zero⟩
  have hended : (s.advance 1).halt.run ≠ .running := by simp
  exact ⟨(s.advance 1).halt, exec_exit, rfl, s.reg_advance_eq 1, rfl, fun _ => rfl, ⟨rfl, rfl, rfl⟩, rfl, rfl,
    step_ne_next hended⟩

/-! ### The jump (41_control.md R131) -/

theorem OnlyRegistersChange.advance (s : State) (n : Nat) : OnlyRegistersChange s (s.advance n) :=
  ⟨rfl, fun _ => rfl, rfl, ⟨rfl, rfl, rfl⟩, rfl, rfl⟩

theorem OnlyRegistersChange.setReg {s t : State} (h : OnlyRegistersChange s t) (j : Fin 16) (v : Byte) :
    OnlyRegistersChange s (t.setReg j v) :=
  h

/-- A jump that is taken overwrites the advanced `PC`, so the advance does not show. -/
theorem State.reg_setPC_advance (s : State) (n : Nat) (target : Byte) (j : Fin 16) :
    ((s.advance n).setPC target).reg j = if j = idxPC then target else s.reg j := by
  rw [State.reg_setPC, State.reg_advance]
  split_ifs <;> rfl

/-- The two effects of the jump, told apart by the flag. -/
theorem exists_exec_jumpIfNotEqual (s : State) (target : Byte) : ∃ t, exec (.jumpIfNotEqual target) s = .next t ∧
    (∀ j, t.reg j = if j = idxPC then (if s.equal = false then target else s.pc + 2) else s.reg j) ∧
    OnlyRegistersChange s t := by
  by_cases he : s.equal = false
  · simp only [if_pos he]
    exact ⟨_, exec_of_effect (.jump target he), s.reg_setPC_advance 2 target,
      (OnlyRegistersChange.advance s 2).setReg idxPC target⟩
  · simp only [if_neg he]
    exact ⟨_, exec_of_effect (.stay target (Bool.eq_true_of_not_eq_false he)), s.reg_advance 2,
      OnlyRegistersChange.advance s 2⟩

/-- Settles O18: the two effects of the jump, and for every other instruction the clause that O19 shares. -/
theorem jumpIfNotEqualTestsTheFlag : Obligations.JumpIfNotEqualTestsTheFlag :=
  ⟨exists_exec_jumpIfNotEqual, fun _ => ignoresFlag_of_ne_jumpIfNotEqual, rfl⟩

end Sys2Proof.Machine

/-! ## The run family: an ended run never goes on -/

namespace Sys2Proof.Machine

/-- From a state without a step nothing else is reached: a run's last step would have to start from that state. -/
theorem Reaches.eq_of_no_step {s t : State} (h : Reaches s t) (hs : ∀ u, Machine.step s ≠ .next u) : t = s := by
  induction h with
  | refl => rfl
  | step _ hstep ih =>
    rw [ih] at hstep
    exact absurd hstep (hs _)

/-- Settles O16: no step by inversion of `step`, and nothing else reached by induction on the run. -/
theorem endedRunHasNoStep : Obligations.EndedRunHasNoStep :=
  fun _ hs => ⟨step_ne_next hs, fun _ h => h.eq_of_no_step (step_ne_next hs)⟩

end Sys2Proof.Machine

/-! ## The hazards family: overflow wraps -/

namespace Sys2Proof.Machine

/-! ### Register arithmetic and the advance modulo 256 (70_reset_and_hazards.md R284) -/

/-- A byte difference by numbers, 256 added first since the difference of two naturals stops at 0. -/
theorem toNat_byte_sub (a b : Byte) : (a - b).toNat = (a.toNat + 256 - b.toNat) % 256 := by
  have hb : b.toNat < 256 := b.isLt
  rw [BitVec.toNat_sub]
  omega

theorem State.reg_setReg_self (s : State) (j : Fin 16) (v : Byte) : (s.setReg j v).reg j = v := by
  rw [State.reg_setReg, if_pos rfl]

/-- The sum of `PC` and a length wraps in the byte that holds it (10_state.md R27). -/
theorem State.toNat_pc_advance (s : State) (n : Nat) : (s.advance n).pc.toNat = (s.pc.toNat + n) % 256 := by
  rw [State.pc_advance, BitVec.toNat_add, BitVec.toNat_ofNat, Nat.add_mod_mod]

theorem exists_exec_addReg8Const8_toNat (s : State) {r : RegIndex} (h : r.toNat < 16) (v : Byte) :
    ∃ t, exec (.addReg8Const8 r v) s = .next t ∧ t.run = s.run ∧
      (t.reg ⟨r.toNat, h⟩).toNat = ((s.operandValue 3 ⟨r.toNat, h⟩).toNat + v.toNat) % 256 := by
  refine ⟨_, exec_addReg8Const8 h v, rfl, ?_⟩
  rw [State.reg_setReg_self]
  exact BitVec.toNat_add ..

theorem exists_exec_subReg8Const8_toNat (s : State) {r : RegIndex} (h : r.toNat < 16) (v : Byte) :
    ∃ t, exec (.subReg8Const8 r v) s = .next t ∧ t.run = s.run ∧
      (t.reg ⟨r.toNat, h⟩).toNat = ((s.operandValue 3 ⟨r.toNat, h⟩).toNat + 256 - v.toNat) % 256 := by
  refine ⟨_, exec_subReg8Const8 h v, rfl, ?_⟩
  rw [State.reg_setReg_self]
  exact toNat_byte_sub ..

/-- Settles O25: the two execute rules leave the run state alone, and byte arithmetic is modulo 256. -/
theorem overflowNeverAborts : Obligations.OverflowNeverAborts :=
  fun s _ v h => ⟨exists_exec_addReg8Const8_toNat s h v, exists_exec_subReg8Const8_toNat s h v,
    fun i => ⟨rfl, s.toNat_pc_advance i.len⟩⟩

end Sys2Proof.Machine

/-! ## Memory, the channels and the invariant over a run -/

namespace Sys2Proof.Machine

/-! ### What one instruction does to memory (20_memory.md section 1, access paths) -/

theorem State.toNat_readBase_le_sp (s : State) : s.readBase.toNat ≤ s.sp.toNat := by
  unfold State.readBase
  split
  · exact le_rfl
  · exact Nat.zero_le _

/-- A read that fits at the stack top fits at either placement's base. -/
theorem State.stackAddr_readBase_add_le {s : State} {n : Nat} (h : s.sp.toNat + n ≤ Config.stackSize) :
    stackAddr s.readBase + n ≤ Config.asSize := by
  have hbase : s.readBase.toNat ≤ s.sp.toNat := s.toNat_readBase_le_sp
  simp only [stackAddr, Config.stackBase, Config.asSize, Config.stackSize] at *
  omega

/-- Memory is as before but for one byte written by the exclusive or, in the Instruction region, and the bytes written by
a read, in the Stack region. -/
theorem Effect.mem_cases {s t : State} {i : Instr} (h : Effect s i t) :
    t.mem = s.mem ∨
      (∃ r v a w, i = .xorMemReg8Const8 r v ∧ a < Config.instrEnd ∧ t.mem = s.mem.write a w) ∨
      ∃ count a ws, i = .readStdinStack count ∧ Config.stackBase ≤ a ∧ a + ws.length ≤ Config.asSize ∧
        t.mem = s.mem.writeList a ws := by
  cases h with
  | xorMem r v h => exact .inr (.inl ⟨r, v, _, _, rfl, regAddr_lt _, rfl⟩)
  | read count h0 ha hf =>
    refine .inr (.inr ⟨count, stackAddr s.readBase, _, rfl, Nat.le_add_right _ _, ?_, rfl⟩)
    rw [List.length_reverse, List.length_take_of_le ha]
    exact State.stackAddr_readBase_add_le hf
  | _ => exact .inl rfl

theorem Effect.wf_mem {s t : State} {i : Instr} (h : Effect s i t) (hm : s.mem.wf = true) : t.mem.wf = true := by
  obtain heq | ⟨_, _, a, w, -, ha, heq⟩ | ⟨_, a, ws, -, -, ha, heq⟩ := h.mem_cases <;> rw [heq]
  · exact hm
  · exact Memory.wf_write hm (ha.trans (by decide)) w
  · exact Memory.wf_writeList hm ha

/-- A byte that reads differently lies where one of the two writers wrote. -/
theorem Effect.writer_of_read_ne {s t : State} {i : Instr} {x : Nat} (h : Effect s i t) (hm : s.mem.wf = true)
    (hne : t.mem.read x ≠ s.mem.read x) :
    (∃ r v, i = .xorMemReg8Const8 r v ∧ x < Config.instrEnd) ∨
      ∃ count, i = .readStdinStack count ∧ Config.stackBase ≤ x ∧ x < Config.asSize := by
  obtain heq | ⟨r, v, a, w, rfl, ha, heq⟩ | ⟨count, a, ws, rfl, hlo, hhi, heq⟩ := h.mem_cases <;> rw [heq] at hne
  · exact absurd rfl hne
  · have hx : x = a := by
      by_contra hx
      exact hne (by rw [Memory.read_write hm, if_neg hx])
    exact .inl ⟨r, v, rfl, hx ▸ ha⟩
  · have hx : a ≤ x ∧ x < a + ws.length := by
      by_contra hx
      exact hne (by rw [Memory.read_writeList hm hhi, if_neg hx])
    exact .inr ⟨count, rfl, hlo.trans hx.1, hx.2.trans_le hhi⟩

/-! ### What one instruction does to the input (10_state.md section 6; 50_interfaces.md) -/

theorem Effect.input_eq {s t : State} {i : Instr} (h : Effect s i t) :
    t.input = s.input ∧ t.inputEnded = s.inputEnded ∧ t.placement = s.placement := by
  cases h <;> exact ⟨rfl, rfl, rfl⟩

/-- The input position stays, or a read moves it forward, by no more than it asks for and no further than the bytes that
have arrived (for a failed read this is the model's bound, log 14). -/
theorem Effect.inPos_cases {s t : State} {i : Instr} (h : Effect s i t) :
    t.inPos = s.inPos ∨
      ∃ count, i = .readStdinStack count ∧ s.inPos ≤ t.inPos ∧
        t.inPos ≤ s.inPos + min count.toNat (s.input.length - s.inPos) := by
  cases h with
  | read count h0 ha hf =>
    rw [State.length_available] at ha
    exact .inr ⟨count, rfl, Nat.le_add_right _ _, Nat.add_le_add_left (le_min le_rfl ha) _⟩
  | inputExhausted count | stackOverflow count => exact .inr ⟨count, rfl, s.afterFailedRead_inPos_le count.toNat⟩
  | _ => exact .inl rfl

/-! ### The invariant over a step and over a run -/

theorem Effect.inv {s t : State} {i : Instr} (h : Effect s i t) (hs : s.Inv) : t.Inv := by
  obtain ⟨hm, hpos⟩ := hs
  obtain ⟨hinput, -, -⟩ := h.input_eq
  refine ⟨h.wf_mem hm, ?_⟩
  rw [hinput]
  obtain heq | ⟨_, -, -, hle⟩ := h.inPos_cases <;> omega

theorem step_inv {s t : State} (hs : s.Inv) (h : step s = .next t) : t.Inv := by
  obtain ⟨-, ⟨_, -, rfl⟩ | ⟨-, rfl⟩ | ⟨_, _, -, he⟩⟩ := step_cases h
  · exact hs
  · exact hs
  · exact he.inv hs

theorem Reaches.inv {s t : State} (h : Reaches s t) (hs : s.Inv) : t.Inv := by
  induction h with
  | refl => exact hs
  | step _ hstep ih => exact step_inv ih hstep

/-- Settles O5: a fatal condition of decode keeps both halves, an instruction by the cases of `Effect`. -/
theorem everyStepKeepsTheInvariant : Obligations.EveryStepKeepsTheInvariant :=
  fun _ _ => step_inv

/-- Settles O32: by inversion of `exec`. -/
theorem memoryHasOnlyTwoWriters : Obligations.MemoryHasOnlyTwoWriters :=
  fun _ _ _ _ hm h => (exec_cases h).writer_of_read_ne hm

/-- The Memory region lies between the two writers' regions. -/
theorem step_read_memoryRegion {s t : State} {a : Nat} (hm : s.mem.wf = true) (h : step s = .next t)
    (hlo : Config.memBase ≤ a) (hhi : a < Config.stackBase) : t.mem.read a = s.mem.read a := by
  obtain ⟨-, ⟨_, -, rfl⟩ | ⟨-, rfl⟩ | ⟨_, _, -, he⟩⟩ := step_cases h
  · rfl
  · rfl
  · by_contra hne
    obtain ⟨_, _, -, ha⟩ | ⟨_, -, ha, -⟩ := he.writer_of_read_ne hm hne
    · exact absurd ha (Nat.not_lt.2 hlo)
    · exact absurd hhi (Nat.not_lt.2 ha)

/-- Settles O31: by induction on the run, with the invariant at each of its states. -/
theorem runsNeverWriteTheMemoryRegion : Obligations.RunsNeverWriteTheMemoryRegion := by
  intro s t hs hreach a hlo hhi
  induction hreach with
  | refl => rfl
  | step hreach hstep ih =>
    obtain ⟨hm, -⟩ := hreach.inv hs
    exact (step_read_memoryRegion hm hstep hlo hhi).trans ih

/-! ### The invariant at the start of a run (70_reset_and_hazards.md section 1; 50_interfaces.md R220) -/

theorem launch_of_length_ne {image : List Byte} (h : image.length ≠ Config.asSize) (input : List Byte) (ended : Bool)
    (placement : ReadPlacement) : launch image input ended placement = .error (.imageLength image.length) :=
  if_neg h

/-- Settles O3: nothing is listed and nothing is consumed. -/
theorem invariantHoldsAtReset : Obligations.InvariantHoldsAtReset :=
  ⟨rfl, le_rfl⟩

/-- Settles O2: the loader looks at the length first. -/
theorem imageOfAnotherLengthIsNotRun : Obligations.ImageOfAnotherLengthIsNotRun :=
  fun _ input ended placement h => launch_of_length_ne h input ended placement

/-- Settles O4: an accepted image has 1024 bytes, so as memory it is in canonical form; nothing is consumed. -/
theorem launchEstablishesTheInvariant : Obligations.LaunchEstablishesTheInvariant := by
  intro image input ended placement s h
  by_cases hlen : image.length = Config.asSize
  · rw [launch_of_length hlen] at h
    cases h
    exact ⟨Memory.wf_ofImage (by omega), Nat.zero_le _⟩
  · rw [launch_of_length_ne hlen] at h
    cases h

end Sys2Proof.Machine

/-! ## The step: what is fetched, what is run, and how a step can end -/

namespace Sys2Proof.Machine

/-! ### The fetch depends on the bytes of the cursor alone (40_decoder.md R113, R117) -/

/-- Settles O11: the two cursors are the same bytes. -/
theorem fetchReadsOnlyTheInstructionRegion : Obligations.FetchReadsOnlyTheInstructionRegion := by
  intro s t hpc hread
  have hcursor : t.cursor = s.cursor := by
    simp only [State.cursor, hpc]
    refine List.map_congr_left fun k hk => hread _ (Nat.le_add_right _ _) ?_
    simp only [List.mem_range, Config.maxLen, Config.instrEnd] at hk
    omega
  rw [State.fetch, hcursor, State.fetch]

/-- An instruction whose encoding stands in memory from `PC` upward, inside the Instruction region, is fetched. -/
theorem State.fetch_eq_instr {s : State} {i : Instr} (hfits : i.FitsAt s.pc.toNat)
    (hread : ∀ k, k < i.len → s.mem.read (s.pc.toNat + k) = (encode i).getD k 0) : s.fetch = .instr i i.len := by
  refine decode_of_encode_prefix (List.prefix_iff_getElem.2 ⟨?_, fun k hk => ?_⟩)
  · have hlen : opcodeLength i.opcode ≤ s.cursor.length :=
      (s.opcodeLength_le_length_cursor_iff _).2 (by rwa [opcodeLength_opcode])
    rwa [length_encode, ← opcodeLength_opcode]
  · rw [s.getElem_cursor, hread k (by rwa [← length_encode]), List.getD_eq_getElem _ _ hk]

/-- Settles O12: what is fetched is what a running step executes. -/
theorem stepRunsTheDecodedInstruction : Obligations.StepRunsTheDecodedInstruction := by
  refine ⟨fun s i hr hfits hread => ?_, fun s i n hr hf => step_of_fetch hr hf⟩
  have hf : s.fetch = .instr i i.len := State.fetch_eq_instr hfits hread
  exact ⟨hf, step_of_fetch hr hf⟩

/-! ### The host's placing of an instruction (log 22) -/

@[simp] theorem length_bytesOf (w k : Nat) : (bytesOf w k).length = k := by
  induction k generalizing w with
  | zero => rfl
  | succ k ih => rw [bytesOf, List.length_cons, ih]

theorem decode_tableBytes {nbits w : Nat} {i : Instr} (h : decodeTableWord nbits w = some i) :
    ∃ n, decode (tableBytes nbits w) = .instr i n := by
  unfold decodeTableWord at h
  split at h
  · cases h
    exact ⟨_, ‹_›⟩
  · cases h
  · cases h

@[simp] theorem State.placeInstr_run (s : State) (bytes : List Byte) : (s.placeInstr bytes).run = .running := rfl

/-- Placing chooses an offset from which a whole cursor of bytes is inside the Instruction region, with `PC` there. -/
theorem State.placeInstr_cases (s : State) (bytes : List Byte) :
    (s.placeInstr bytes).pc.toNat + Config.maxLen ≤ Config.instrEnd ∧
      (s.placeInstr bytes).mem = s.mem.writeList (s.placeInstr bytes).pc.toNat bytes := by
  unfold State.placeInstr
  split
  · exact ⟨‹_›, rfl⟩
  · have hpc : (s.setPC 0x00).pc = 0x00 := s.pc_setPC _
    refine ⟨?_, rfl⟩
    show (s.setPC 0x00).pc.toNat + _ ≤ _
    rw [hpc]
    decide

/-- The next fetch sees exactly the bytes placed. -/
theorem State.cursor_placeInstr {s : State} {bytes : List Byte} (hm : s.mem.wf = true)
    (hlen : bytes.length = Config.maxLen) : (s.placeInstr bytes).cursor = bytes := by
  obtain ⟨hfits, hmem⟩ := s.placeInstr_cases bytes
  refine List.ext_getElem ?_ fun k hk hk' => ?_
  · rw [State.length_cursor, hlen]
    omega
  · have hspace : (s.placeInstr bytes).pc.toNat + bytes.length ≤ Config.asSize := by
      rw [hlen]
      exact hfits.trans (by decide)
    rw [State.getElem_cursor, hmem, Memory.read_writeList hm hspace, if_pos (by omega), Nat.add_sub_cancel_left,
      List.getD_eq_getElem _ _ hk']

/-- Settles O13: the next fetch decodes the bytes of the word. -/
theorem placedWordIsRunNext : Obligations.PlacedWordIsRunNext := by
  intro s nbits w i hm hword
  obtain ⟨n, hn⟩ := decode_tableBytes hword
  have hcursor : (s.withFetchWord nbits w).cursor = tableBytes nbits w := State.cursor_placeInstr hm (length_bytesOf _ _)
  have hfetch : (s.withFetchWord nbits w).fetch = .instr i n := by rw [State.fetch, hcursor, hn]
  exact step_of_fetch (s.placeInstr_run _) hfetch

/-! ### Progress (46_fetch_execute_loop.md R200 to R204) -/

theorem exists_step_eq_next {s : State} (hr : s.run = .running) : ∃ t, step s = .next t := by
  cases hf : s.fetch with
  | instr i n =>
    obtain ⟨t, ht, -⟩ := exec_effect i s
    exact ⟨t, (step_of_fetch hr hf).trans ht⟩
  | unknownOpcode b => exact ⟨_, step_of_fetch_unknownOpcode hr hf⟩
  | exhausted => exact ⟨_, step_of_fetch_exhausted hr hf⟩

/-- Settles O15: the three outcomes are the three run states of the state that the step answers. -/
theorem everyRunningStepHasANextState : Obligations.EveryRunningStepHasANextState := by
  intro s hr
  obtain ⟨t, ht⟩ := exists_step_eq_next hr
  refine ⟨t, ht, ?_⟩
  cases hrun : t.run with
  | running => exact .inl rfl
  | halted => exact .inr (.inl ⟨rfl, fetch_eq_exit_of_step_halted ht hrun⟩)
  | faulted c => exact .inr (.inr ⟨c, rfl, step_ne_next (by simp [hrun])⟩)

end Sys2Proof.Machine

/-! ## The instructions that complete: results and frames -/

namespace Sys2Proof.Machine

/-! ### Frames of the shared operations -/

section Frames
variable (s : State) (n : Nat)

theorem RegsAfterAdvance.advance : RegsAfterAdvance s (s.advance n) n :=
  s.reg_advance_eq n

/-- The destination is written over the advanced register file, so that `PC` as destination holds the value. -/
theorem RegsAfterWrite.setReg_advance (d : Fin 16) (v : Byte) :
    RegsAfterWrite s ((s.advance n).setReg d v) n d v := by
  intro j
  rw [State.reg_setReg, State.reg_advance_eq]

/-- An instruction that writes one register and nothing else. -/
theorem exists_next_setReg {o : Host.Outcome State Fault Refusal} {d : Fin 16} {v w : Byte}
    (h : o = .next ((s.advance n).setReg d w)) (hw : w = v) :
    ∃ t, o = .next t ∧ RegsAfterWrite s t n d v ∧ OnlyRegistersChange s t :=
  ⟨_, h, hw ▸ RegsAfterWrite.setReg_advance s n d w, (OnlyRegistersChange.advance s n).setReg d w⟩

/-- An instruction that writes the flag and nothing else. -/
theorem exists_next_setEqual {o : Host.Outcome State Fault Refusal} {a b : Byte}
    (h : o = .next ((s.advance n).setEqual (a == b))) :
    ∃ t, o = .next t ∧ t.equal = decide (a = b) ∧ RegsAfterAdvance s t n ∧ SameMemory s t ∧ t.run = s.run ∧
      SameInput s t ∧ t.output = s.output ∧ t.placement = s.placement :=
  ⟨_, h, beq_eq_decide .., RegsAfterAdvance.advance s n, fun _ => rfl, rfl, ⟨rfl, rfl, rfl⟩, rfl, rfl⟩

end Frames

/-! ### Move, arithmetic and logic (42_move_arith.md section 2) -/

theorem byte_add_eq_ofNat (a b : Byte) : a + b = BitVec.ofNat 8 (a.toNat + b.toNat) := by
  rw [BitVec.ofNat_add, BitVec.ofNat_toNat, BitVec.ofNat_toNat, BitVec.setWidth_eq, BitVec.setWidth_eq]

theorem byte_sub_eq_ofNat (a b : Byte) : a - b = BitVec.ofNat 8 (a.toNat + 256 - b.toNat) := by
  apply BitVec.eq_of_toNat_eq
  rw [toNat_byte_sub, BitVec.toNat_ofNat]

/-- Settles O20: the execute rule writes one register. -/
theorem moveWritesTheLiteral : Obligations.MoveWritesTheLiteral :=
  fun s _ v h => exists_next_setReg s 3 (exec_movReg8Const8 h v) rfl

/-- Settles O21: byte subtraction is modulo 256. -/
theorem subtractWritesTheDifference : Obligations.SubtractWritesTheDifference :=
  fun s _ v h => exists_next_setReg s 3 (exec_subReg8Const8 h v) (byte_sub_eq_ofNat ..)

/-- Settles O22: byte addition is modulo 256. -/
theorem addWritesTheSum : Obligations.AddWritesTheSum :=
  fun s _ v h => exists_next_setReg s 3 (exec_addReg8Const8 h v) (byte_add_eq_ofNat ..)

/-- Settles O23: the execute rule writes one register. -/
theorem xorConstWritesTheExclusiveOr : Obligations.XorConstWritesTheExclusiveOr :=
  fun s _ v h => exists_next_setReg s 3 (exec_xorReg8Const8 h v) rfl

/-- Settles O24: the execute rule reads both cells before it writes one. -/
theorem xorRegWritesTheExclusiveOr : Obligations.XorRegWritesTheExclusiveOr :=
  fun s _ _ hd hr => exists_next_setReg s 3 (exec_xorReg8Reg8 hd hr) rfl

/-! ### Compare (44_compare.md) -/

/-- Settles O26: the execute rule writes the flag alone. -/
theorem compareConstSetsTheFlag : Obligations.CompareConstSetsTheFlag :=
  fun s _ v h => exists_next_setEqual s 3 (exec_cmpReg8Const8 h v)

/-- Settles O27: the execute rule writes the flag alone. -/
theorem compareRegSetsTheFlag : Obligations.CompareRegSetsTheFlag :=
  fun s _ _ ha hb => exists_next_setEqual s 3 (exec_cmpReg8Reg8 ha hb)

/-! ### Memory (43_memory.md) -/

/-- Settles O28: read after write, at the cell's value with no base added. -/
theorem xorMemChangesOneInstructionByte : Obligations.XorMemChangesOneInstructionByte := by
  intro s r v h hm
  refine ⟨regAddr_lt _, _, exec_xorMemReg8Const8 h v, fun a => ?_, RegsAfterAdvance.advance s 3, rfl, rfl,
    ⟨rfl, rfl, rfl⟩, rfl, rfl⟩
  rw [State.setMem_mem, Memory.read_write hm]
  split_ifs with ha
  · rw [ha]
  · rfl

/-- Settles O29: the composite address is high times 256 plus low, and is inside the address space. -/
theorem loadReadsTheCompositeAddress : Obligations.LoadReadsTheCompositeAddress := by
  intro s h l d hh hl hd hlt
  rw [← composite_toNat] at hlt ⊢
  exact exists_next_setReg s 4 (exec_of_effect (.deref h l d hh hl hd hlt)) rfl

theorem State.opcodeByte_setMem_write {s : State} (hm : s.mem.wf = true) (v : Byte) :
    (s.setMem (s.mem.write s.pc.toNat v)).opcodeByte = v := by
  rw [State.opcodeByte, State.pc_setMem, State.setMem_mem, Memory.read_write hm, if_pos rfl]

/-- `XorMemReg8Const8` of `PC` acts on the opcode byte of the next sequential instruction. -/
theorem exec_xorMemReg8Const8_pc (s : State) (v : Byte) :
    exec (.xorMemReg8Const8 (BitVec.ofNat 8 idxPC.val) v) s =
      .next ((s.advance 3).setMem
        ((s.advance 3).mem.write (s.advance 3).pc.toNat ((s.advance 3).opcodeByte ^^^ v))) := by
  rw [exec_xorMemReg8Const8 (r := BitVec.ofNat 8 idxPC.val) (by decide), State.opcodeByte, State.pc_advance]
  rfl

/-- Settles O33: a byte combined with itself is 0, the opcode byte of `Exit`. -/
theorem patchedOpcodeIsExecutedNext : Obligations.PatchedOpcodeIsExecutedNext := by
  intro s v ⟨hm, _⟩ hr hv
  have hnext : (s.advance 3).opcodeByte = v := by rw [State.opcodeByte, State.pc_advance]; exact hv
  have hexec := exec_xorMemReg8Const8_pc s v
  rw [hnext, BitVec.xor_self] at hexec
  have hfetch := State.fetch_of_opcodeByte_zero (State.opcodeByte_setMem_write (s := s.advance 3) hm 0)
  refine ⟨_, _, hexec, step_of_fetch ?_ hfetch, rfl⟩
  exact hr

end Sys2Proof.Machine

/-! ## The stack and the channels -/

namespace Sys2Proof.Machine

theorem toNat_pos_of_ne_zero {b : Byte} (h : b ≠ 0) : 0 < b.toNat :=
  Nat.pos_of_ne_zero fun h0 => h (BitVec.eq_of_toNat_eq h0)

theorem ne_zero_of_toNat_pos {b : Byte} (h : 0 < b.toNat) : b ≠ 0 := by
  rintro rfl
  exact absurd h (by decide)

theorem toNat_byte_add_of_lt {a b : Byte} (h : a.toNat + b.toNat < 256) : (a + b).toNat = a.toNat + b.toNat := by
  rw [BitVec.toNat_add, Nat.mod_eq_of_lt h]

theorem toNat_byte_sub_one {a : Byte} (h : a ≠ 0) : (a - 1).toNat = a.toNat - 1 := by
  have hpos : 0 < a.toNat := toNat_pos_of_ne_zero h
  have hlt : a.toNat < 256 := a.isLt
  rw [toNat_byte_sub, show (1 : Byte).toNat = 1 from rfl]
  omega

/-! ### A request against what has arrived (50_interfaces.md R221) -/

theorem State.le_length_available {s : State} {n : Nat} (h : s.inPos + n ≤ s.input.length) :
    n ≤ s.available.length := by
  rw [State.length_available]
  omega

theorem State.length_available_lt_iff {s : State} {n : Nat} (hn : 0 < n) :
    s.available.length < n ↔ s.input.length < s.inPos + n := by
  rw [State.length_available]
  omega

/-! ### A read that completes (45_stack_io.md R180, R183) -/

theorem State.setReg_reg (s : State) (j : Fin 16) : s.setReg j (s.reg j) = s := by
  simp [State.setReg, State.reg]

/-- The one form of a read that completes: a read of no bytes (D20) consumes, writes and raises `SP` by nothing. -/
theorem exec_readStdinStack_of_fits {s : State} {count : Byte} (ha : s.inPos + count.toNat ≤ s.input.length)
    (hf : s.sp.toNat + count.toNat ≤ Config.stackSize) :
    exec (.readStdinStack count) s =
      .next ((((s.advance 2).consume count.toNat).setMem
        (s.mem.writeList (stackAddr s.readBase) (s.available.take count.toNat).reverse)).setSP (s.sp + count)) := by
  by_cases h0 : count = 0
  · subst h0
    have hsp : s.sp + 0 = (s.advance 2).reg idxSP := (BitVec.add_zero _).trans (s.sp_advance 2).symm
    rw [exec_readStdinStack_zero, hsp]
    exact congrArg _ ((s.advance 2).setReg_reg idxSP).symm
  · exact exec_readStdinStack_ok h0 (State.le_length_available ha) hf

theorem State.stackAddr_readBase (s : State) :
    stackAddr s.readBase = Config.stackBase + if s.placement = .appendAtSP then s.sp.toNat else 0 := by
  unfold State.readBase stackAddr
  cases s.placement <;> rfl

theorem State.length_take_available {s : State} {n : Nat} (ha : s.inPos + n ≤ s.input.length) :
    (s.available.take n).length = n :=
  List.length_take_of_le (State.le_length_available ha)

/-- Of the bytes a read pushes, byte `k` from below is the one that arrived `k` places before the last. -/
theorem State.getD_reverse_take_available {s : State} {n k : Nat} (ha : s.inPos + n ≤ s.input.length) (hk : k < n)
    (v : Byte) : (s.available.take n).reverse.getD k v = s.input.getD (s.inPos + (n - 1 - k)) v := by
  have hlen : (s.available.take n).length = n := State.length_take_available ha
  rw [List.getD_eq_getElem _ _ (by rw [List.length_reverse, hlen]; exact hk), List.getD_eq_getElem _ _ (by omega)]
  simp only [List.getElem_reverse, hlen]
  simp only [State.available, List.getElem_take, List.getElem_drop]

/-- Memory after a read that completes. -/
theorem State.read_writeList_available {s : State} {n : Nat} (hm : s.mem.wf = true)
    (ha : s.inPos + n ≤ s.input.length) (hf : s.sp.toNat + n ≤ Config.stackSize) (a : Nat) :
    (s.mem.writeList (stackAddr s.readBase) (s.available.take n).reverse).read a =
      if stackAddr s.readBase ≤ a ∧ a < stackAddr s.readBase + n then
        s.input.getD (s.inPos + (n - 1 - (a - stackAddr s.readBase))) 0
      else s.mem.read a := by
  have hlen : (s.available.take n).reverse.length = n := by rw [List.length_reverse, State.length_take_available ha]
  rw [Memory.read_writeList hm (by rw [hlen]; exact State.stackAddr_readBase_add_le hf), hlen]
  split_ifs with hin
  · exact State.getD_reverse_take_available ha (by omega) 0
  · rfl

/-- Settles O34: the one form of a read that completes, with its memory read byte by byte. -/
theorem readPushesTheInputReversed : Obligations.ReadPushesTheInputReversed := by
  intro s count hm ha hf
  refine ⟨s.stackAddr_readBase, _, exec_readStdinStack_of_fits ha hf, State.read_writeList_available hm ha hf,
    fun j => ?_, rfl, rfl, rfl, rfl, rfl, rfl, rfl⟩
  rw [State.reg_setSP]
  exact congrArg _ (s.reg_advance_eq 2 j)

/-- Settles O35: only the advance is left of the execute rule. -/
theorem readOfNoBytesOnlyAdvances : Obligations.ReadOfNoBytesOnlyAdvances :=
  fun s => ⟨_, exec_readStdinStack_zero, RegsAfterAdvance.advance s 2, OnlyRegistersChange.advance s 2⟩

/-! ### A read that fails, and a read that waits (50_interfaces.md R221; 60_exceptions.md R244, R246, R249) -/

theorem endsFatally_inputExhausted {s : State} {count : Byte} (h0 : count ≠ 0) (he : s.inputEnded = true)
    (ha : s.input.length < s.inPos + count.toNat) :
    EndsFatally (exec (.readStdinStack count) s) s .inputExhausted :=
  have hshort := (State.length_available_lt_iff (toNat_pos_of_ne_zero h0)).2 ha
  ⟨_, exec_of_effect (.inputExhausted count h0 hshort he), rfl, rfl⟩

/-- Settles O36: the two fatal effects of a read. -/
theorem readThatFailsEndsTheRun : Obligations.ReadThatFailsEndsTheRun := by
  refine fun s count h0 => ⟨fun he => endsFatally_inputExhausted h0 he, fun ha hf => ?_⟩
  exact ⟨_, exec_of_effect (.stackOverflow count h0 (State.le_length_available ha) hf), rfl, rfl⟩

theorem State.deliver_of_not_ended {s : State} (he : s.inputEnded = false) (b : List Byte) :
    s.deliver b = { s with input := s.input ++ b } := by
  simp [State.deliver, he]

/-- Settles O37: the wait is an effect of its own; the request looks at the input anew. -/
theorem readWaitsForItsBytes : Obligations.ReadWaitsForItsBytes := by
  intro s count h0 he ha
  have hshort := (State.length_available_lt_iff (toNat_pos_of_ne_zero h0)).2 ha
  refine ⟨exec_of_effect (.wait count h0 hshort he), fun b hb => ?_, endsFatally_inputExhausted h0 rfl ha⟩
  rw [State.deliver_of_not_ended he]
  exact State.request_of_le (State.le_length_available hb)

/-! ### The two placements on an empty stack (45_stack_io.md R183) -/

theorem State.readBase_of_sp_zero {s : State} (h : s.sp = 0) : s.readBase = 0 := by
  unfold State.readBase
  split
  · exact h
  · rfl

/-- Settles O38: of the effects of a read only the completing one reads the placement, for its base. -/
theorem placementsAgreeOnAnEmptyStack : Obligations.PlacementsAgreeOnAnEmptyStack := by
  intro s t count p hsp h
  apply exec_of_effect
  cases exec_cases h with
  | readNone => exact .readNone
  | read count h0 ha hf =>
    have hbase : State.readBase { s with placement := p } = s.readBase := by
      rw [State.readBase_of_sp_zero hsp]
      exact State.readBase_of_sp_zero hsp
    have hread := Effect.read (s := { s with placement := p }) count h0 ha hf
    rw [hbase] at hread
    exact hread
  | wait count h0 ha he => exact .wait count h0 ha he
  | inputExhausted count h0 ha he => exact .inputExhausted count h0 ha he
  | stackOverflow count h0 ha hf => exact .stackOverflow count h0 ha hf
  | registerIndexOutOfRange _ hw => exact .registerIndexOutOfRange _ hw

/-! ### Pop (45_stack_io.md R181; 90_conflicts.md C2) -/

theorem stackAddr_sub_one {v : Byte} (h : v ≠ 0) : stackAddr (v - 1) = Config.stackBase + (v.toNat - 1) := by
  rw [stackAddr, toNat_byte_sub_one h]

/-- Settles O39: `SP` is written before the destination, so `SP` as destination keeps the byte. -/
theorem popReadsBelowTheStackPointer : Obligations.PopReadsBelowTheStackPointer := by
  intro s r h h0
  refine ⟨_, exec_of_effect (.pop r h h0), fun j => ?_,
    ((OnlyRegistersChange.advance s 2).setReg idxSP _).setReg _ _⟩
  rw [State.reg_setReg, State.reg_setSP, State.reg_advance_eq, stackAddr_sub_one h0]
  rfl

/-- Settles O40: the pop's fatal effect. -/
theorem popOfAnEmptyStackEndsTheRun : Obligations.PopOfAnEmptyStackEndsTheRun :=
  fun _ r h h0 => ⟨_, exec_of_effect (.stackEmpty r h h0), rfl, rfl⟩

/-- A pop of a non-empty stack puts the byte below `SP` into its cell. -/
theorem exists_exec_popReg8_reg {s : State} {r : RegIndex} (h : r.toNat < 16) (h0 : s.sp ≠ 0) :
    ∃ t, exec (.popReg8 r) s = .next t ∧ t.reg ⟨r.toNat, h⟩ = s.mem.read (Config.stackBase + (s.sp.toNat - 1)) := by
  refine ⟨_, exec_of_effect (.pop r h h0), ?_⟩
  rw [State.reg_setReg_self, stackAddr_sub_one h0]

/-- Settles O41: `SP` after the read is just above the byte that arrived first, the highest of those pushed. -/
theorem firstByteToArriveIsPoppedFirst : Obligations.FirstByteToArriveIsPoppedFirst := by
  intro s t count r h hm h0 ha hf hplace hexec
  have hfits : s.sp.toNat + count.toNat ≤ Config.stackSize := hf.trans (by decide)
  have hpos : 0 < count.toNat := toNat_pos_of_ne_zero h0
  have hbase : stackAddr s.readBase = Config.stackBase + s.sp.toNat := by
    rw [State.stackAddr_readBase]
    obtain hp | hsp := hplace
    · rw [if_pos hp]
    · simp [hsp]
  rw [exec_readStdinStack_of_fits ha hfits] at hexec
  cases hexec
  have hsum : (s.sp + count).toNat = s.sp.toNat + count.toNat := toNat_byte_add_of_lt (by omega)
  have hne : s.sp + count ≠ 0 := ne_zero_of_toNat_pos (by omega)
  obtain ⟨u, hu, hreg⟩ := exists_exec_popReg8_reg h ((State.sp_setSP _ _).trans_ne hne)
  refine ⟨u, hu, hreg.trans ?_⟩
  rw [State.sp_setSP, hsum, State.setSP_mem, State.setMem_mem, State.read_writeList_available hm ha hfits, hbase,
    if_pos (by omega)]
  congr 1
  omega

/-! ### The output sink (45_stack_io.md R182; 50_interfaces.md R222) -/

/-- Settles O42: the execute rule appends to the sink of the advanced state and does nothing else. -/
theorem writeAppendsItsByte : Obligations.WriteAppendsItsByte :=
  fun s byte => ⟨_, exec_writeStdoutConst8 byte, rfl, RegsAfterAdvance.advance s 2, rfl, fun _ => rfl, rfl,
    ⟨rfl, rfl, rfl⟩, rfl⟩

end Sys2Proof.Machine

/-! ## Fatal conditions, and what no step does to the channels -/

namespace Sys2Proof.Machine

/-! ### The channels over a step (50_interfaces.md; 60_exceptions.md section 4) -/

/-- An instruction writes at most its one byte to the sink; a fatal condition writes none. -/
theorem Effect.output_cases {s t : State} {i : Instr} (h : Effect s i t) :
    t.output = s.output ∨ ∃ b, i = .writeStdoutConst8 b ∧ t.output = s.output ++ [b] ∧ t.run = s.run := by
  cases h with
  | write b => exact .inr ⟨b, rfl, rfl, rfl⟩
  | _ => exact .inl rfl

/-- No side condition of `Effect` mentions the sink, and the bytes before what is appended stay before it. -/
theorem Effect.prepend_output {s t : State} {i : Instr} (h : Effect s i t) (before : List Byte) :
    Effect { s with output := before ++ s.output } i { t with output := before ++ t.output } := by
  cases h with
  | exit => exact .exit
  | stay target h => exact .stay target h
  | jump target h => exact .jump target h
  | mov r v h => exact .mov r v h
  | sub r v h => exact .sub r v h
  | add r v h => exact .add r v h
  | xorConst r v h => exact .xorConst r v h
  | xorReg d r hd hr => exact .xorReg d r hd hr
  | cmpConst r v h => exact .cmpConst r v h
  | cmpReg a b ha hb => exact .cmpReg a b ha hb
  | xorMem r v h => exact .xorMem r v h
  | deref h l d hh hl hd hea => exact .deref h l d hh hl hd hea
  | pop r h h0 => exact .pop r h h0
  | write byte =>
    rw [State.put_output, State.advance_output, ← List.append_assoc]
    exact .write byte
  | readNone => exact .readNone
  | read count h0 ha hf => exact .read count h0 ha hf
  | wait count h0 ha he => exact .wait count h0 ha he
  | inputExhausted count h0 ha he => exact .inputExhausted count h0 ha he
  | stackOverflow count h0 ha hf => exact .stackOverflow count h0 ha hf
  | stackEmpty r h h0 => exact .stackEmpty r h h0
  | addressOutOfRange h l d hh hl hd hea => exact .addressOutOfRange h l d hh hl hd hea
  | registerIndexOutOfRange i h => exact .registerIndexOutOfRange i h

theorem step_prepend_output {s t : State} (h : step s = .next t) (before : List Byte) :
    step { s with output := before ++ s.output } = .next { t with output := before ++ t.output } := by
  obtain ⟨hr, ⟨_, hf, rfl⟩ | ⟨hf, rfl⟩ | ⟨_, _, hf, he⟩⟩ := step_cases h
  · exact step_of_fetch_unknownOpcode (s := { s with output := before ++ s.output }) hr hf
  · exact step_of_fetch_exhausted (s := { s with output := before ++ s.output }) hr hf
  · exact (step_of_fetch (s := { s with output := before ++ s.output }) hr hf).trans
      (exec_of_effect (he.prepend_output before))

theorem step_output_cases {s t : State} (h : step s = .next t) :
    t.output = s.output ∨
      ∃ b, s.fetch = .instr (.writeStdoutConst8 b) 2 ∧ t.output = s.output ++ [b] ∧ t.run = s.run := by
  obtain ⟨-, ⟨_, -, rfl⟩ | ⟨-, rfl⟩ | ⟨i, n, hf, he⟩⟩ := step_cases h
  · exact .inl rfl
  · exact .inl rfl
  · refine he.output_cases.imp_right ?_
    rintro ⟨b, rfl, hout, hrun⟩
    obtain ⟨-, rfl⟩ := State.length_of_fetch hf
    exact ⟨b, hf, hout, hrun⟩

/-- Settles O43: no effect depends on the sink, and one writes to it. -/
theorem outputIsNeverRead : Obligations.OutputIsNeverRead :=
  fun _ _ h => ⟨step_prepend_output h, step_output_cases h⟩

/-- Settles O44: a fatal condition of decode leaves the input alone, an instruction does what `Effect` says of it. -/
theorem onlyReadsConsumeInput : Obligations.OnlyReadsConsumeInput := by
  intro s t h
  obtain ⟨-, ⟨_, -, rfl⟩ | ⟨-, rfl⟩ | ⟨i, n, hf, he⟩⟩ := step_cases h
  · exact ⟨rfl, rfl, rfl, le_rfl, absurd rfl⟩
  · exact ⟨rfl, rfl, rfl, le_rfl, absurd rfl⟩
  · obtain ⟨hinput, hended, hplace⟩ := he.input_eq
    obtain heq | ⟨count, rfl, hlo, hhi⟩ := he.inPos_cases
    · exact ⟨hinput, hended, hplace, heq.ge, absurd heq⟩
    · obtain ⟨-, rfl⟩ := State.length_of_fetch hf
      exact ⟨hinput, hended, hplace, hlo, fun _ => ⟨count, hf, by omega⟩⟩

/-! ### The table of causes (60_exceptions.md R241, R251) -/

/-- Settles O45: the operands are resolved before anything else. -/
theorem outOfRangeRegisterOperandEndsTheRun : Obligations.OutOfRangeRegisterOperandEndsTheRun :=
  fun _ _ h => ⟨_, exec_of_not_wellFormed h, rfl, rfl⟩

/-- A composite address leaves the address space exactly when its high byte is 4 or more. -/
theorem asSize_le_composite_iff (high low : Byte) :
    Config.asSize ≤ (composite high low).toNat ↔ 4 ≤ high.toNat := by
  have hlow : low.toNat < 256 := low.isLt
  rw [composite_toNat, Config.asSize]
  omega

/-- Settles O30: the load's fatal effect. -/
theorem loadBeyondTheAddressSpaceEndsTheRun : Obligations.LoadBeyondTheAddressSpaceEndsTheRun :=
  fun _ h l d hh hl hd hge =>
    ⟨_, exec_of_effect (.addressOutOfRange h l d hh hl hd ((asSize_le_composite_iff _ _).2 hge)), rfl, rfl⟩

/-- The three answers of a fetch exclude each other, so an unknown opcode is only answered to a byte above 13. -/
theorem State.lt_opcodeByte_of_fetch {s : State} {b : Byte} (h : s.fetch = .unknownOpcode b) :
    13 < s.opcodeByte.toNat := by
  by_contra hop
  have hop : s.opcodeByte.toNat ≤ 13 := Nat.le_of_not_lt hop
  by_cases hfits : s.pc.toNat + opcodeLength s.opcodeByte ≤ Config.instrEnd
  · obtain ⟨i, hi⟩ := State.exists_fetch_eq_instr hop hfits
    simp [hi] at h
  · simp [State.fetch_eq_exhausted hop (Nat.lt_of_not_le hfits)] at h

/-- Exhaustion is only answered to a legal byte whose operand bytes would pass the region's end. -/
theorem State.past_instrEnd_of_fetch {s : State} (h : s.fetch = .exhausted) :
    s.opcodeByte.toNat ≤ 13 ∧ Config.instrEnd < s.pc.toNat + opcodeLength s.opcodeByte := by
  have hop : s.opcodeByte.toNat ≤ 13 := by
    by_contra hop
    simp [State.fetch_eq_unknownOpcode (Nat.lt_of_not_le hop)] at h
  refine ⟨hop, ?_⟩
  by_contra hfits
  obtain ⟨i, hi⟩ := State.exists_fetch_eq_instr hop (Nat.le_of_not_lt hfits)
  simp [hi] at h

/-- The fatal effects of an instruction are the table's; every other effect leaves the run state, or halts. -/
theorem Effect.fatalCondition {s t : State} {i : Instr} {n : Nat} {c : Cause} (h : Effect s i t)
    (hr : s.run = .running) (hf : s.fetch = .instr i n) (ht : t.run = .faulted c) : FatalCondition s c := by
  have hne : s.run ≠ .faulted c := by simp [hr]
  cases h with
  | registerIndexOutOfRange _ hw =>
    cases ht
    exact ⟨i, n, hf, hw⟩
  | stackEmpty r h h0 =>
    cases ht
    exact ⟨r, n, hf, h, h0⟩
  | addressOutOfRange h l d hh hl hd hea =>
    cases ht
    exact ⟨h, l, d, n, hf, hl, hd, hh, (asSize_le_composite_iff _ _).1 hea⟩
  | inputExhausted count h0 ha he =>
    cases ht
    exact ⟨count, n, hf, h0, he, ha⟩
  | stackOverflow count h0 ha hsp =>
    cases ht
    exact ⟨count, n, hf, h0, ha, hsp⟩
  | exit => cases ht
  | _ => exact absurd ht hne

theorem fatalCondition_of_step {s t : State} {c : Cause} (h : step s = .next t) (ht : t.run = .faulted c) :
    FatalCondition s c := by
  obtain ⟨hr, ⟨b, hf, rfl⟩ | ⟨hf, rfl⟩ | ⟨i, n, hf, he⟩⟩ := step_cases h
  · cases ht
    exact State.lt_opcodeByte_of_fetch hf
  · cases ht
    exact State.past_instrEnd_of_fetch hf
  · exact he.fatalCondition hr hf ht

/-- A step of a running machine that fetches an instruction has that instruction's effects. -/
theorem step_of_effect {s t : State} {i : Instr} {n : Nat} (hr : s.run = .running) (hf : s.fetch = .instr i n)
    (h : Effect s i t) : step s = .next t :=
  (step_of_fetch hr hf).trans (exec_of_effect h)

theorem exists_step_faulted {s : State} {c : Cause} (hr : s.run = .running) (h : FatalCondition s c) :
    ∃ t, step s = .next t ∧ t.run = .faulted c := by
  cases c with
  | unknownOpcode => exact ⟨_, step_of_fetch_unknownOpcode hr (State.fetch_eq_unknownOpcode h), rfl⟩
  | decodeExhausted =>
    obtain ⟨hop, hpast⟩ := h
    exact ⟨_, step_of_fetch_exhausted hr (State.fetch_eq_exhausted hop hpast), rfl⟩
  | registerIndexOutOfRange =>
    obtain ⟨i, n, hf, hw⟩ := h
    exact ⟨_, step_of_effect hr hf (.registerIndexOutOfRange i hw), rfl⟩
  | stackEmpty =>
    obtain ⟨r, n, hf, hlt, h0⟩ := h
    exact ⟨_, step_of_effect hr hf (.stackEmpty r hlt h0), rfl⟩
  | addressOutOfRange =>
    obtain ⟨h, l, d, n, hf, hl, hd, hh, hge⟩ := h
    exact ⟨_, step_of_effect hr hf (.addressOutOfRange h l d hh hl hd ((asSize_le_composite_iff _ _).2 hge)), rfl⟩
  | inputExhausted =>
    obtain ⟨count, n, hf, h0, he, ha⟩ := h
    exact ⟨_, step_of_effect hr hf (.inputExhausted count h0 ha he), rfl⟩
  | stackOverflow =>
    obtain ⟨count, n, hf, h0, ha, hsp⟩ := h
    exact ⟨_, step_of_effect hr hf (.stackOverflow count h0 ha hsp), rfl⟩

/-- Settles O46: one direction inverts the step, the other runs it for each cause. -/
theorem fatalConditionsAreExactlyTheTable : Obligations.FatalConditionsAreExactlyTheTable :=
  fun _ _ hr => ⟨fun ⟨_, h, ht⟩ => fatalCondition_of_step h ht, exists_step_faulted hr⟩

/-! ### The diagnostic (50_interfaces.md R223; 60_exceptions.md R241) -/

/-- A fatal condition leaves the registers and memory as they were (the spec's decision D8, log 7). -/
theorem Effect.frozen_of_faulted {s t : State} {i : Instr} {c : Cause} (h : Effect s i t) (hr : s.run = .running)
    (ht : t.run = .faulted c) : t.regs = s.regs ∧ t.mem = s.mem := by
  have hne : s.run ≠ .faulted c := by simp [hr]
  cases h with
  | inputExhausted | stackOverflow | stackEmpty | addressOutOfRange | registerIndexOutOfRange => exact ⟨rfl, rfl⟩
  | exit => cases ht
  | _ => exact absurd ht hne

theorem step_frozen_of_faulted {s t : State} {c : Cause} (h : step s = .next t) (ht : t.run = .faulted c) :
    t.regs = s.regs ∧ t.mem = s.mem := by
  obtain ⟨hr, ⟨_, -, rfl⟩ | ⟨-, rfl⟩ | ⟨_, _, -, he⟩⟩ := step_cases h
  · exact ⟨rfl, rfl⟩
  · exact ⟨rfl, rfl⟩
  · exact he.frozen_of_faulted hr ht

theorem State.diagnostic_of_faulted {s : State} {c : Cause} (h : s.run = .faulted c) :
    s.diagnostic = some ⟨c, s.pc, s.fatalDetail c⟩ := by
  simp only [State.diagnostic, h]

/-- Settles O47: what the diagnostic is read from is frozen. -/
theorem diagnosticNamesCauseAndAddress : Obligations.DiagnosticNamesCauseAndAddress := by
  intro s t c _ h ht
  obtain ⟨hregs, hmem⟩ := step_frozen_of_faulted h ht
  have hpc : t.pc = s.pc := State.reg_congr hregs idxPC
  refine ⟨_, State.diagnostic_of_faulted ht, rfl, hpc, ?_⟩
  rintro rfl
  show FatalDetail.byte (t.mem.read t.pc.toNat) = .byte s.opcodeByte
  rw [hmem, hpc, State.opcodeByte]

/-! ### One word of each opcode (30_encoding.md R93; 95_test_vectors.md S1) -/

/-- Settles O7: by evaluating the decoder on each word. -/
theorem specWordsDecode : Obligations.SpecWordsDecode :=
  ⟨rfl, rfl, rfl, rfl, rfl, rfl, rfl, rfl, rfl, rfl, rfl, rfl, rfl, rfl⟩

end Sys2Proof.Machine
